-- ==== Sys2Proof/Word.lean ====
section
/-! DEFINITION. The words of the stegarst CORE: 32-bit CSR words, bytes and Bits (00_scope.md R10). -/

namespace Sys2Proof

/-- A CSR word or command word: 32 bits (R10). -/
abbrev Word := BitVec 32

/-- A byte: 8 bits, unsigned (R10). -/
abbrev Byte := BitVec 8

/-- A Bit: 0 or 1 (R10, R17). `false` is 0 and `true` is 1. -/
abbrev Bit := Bool

end Sys2Proof
end

