-- ==== Sys2Proof/Syntax.lean ====
section
/-! DEFINITION. The nine commands of the opcode map (30_encoding.md R58). A command word holds no operand (R57), so no
constructor has an argument: every operand comes from the operand CSRs at the engine step. -/

namespace Sys2Proof

/-- One constructor for each row of spec/opcode_table.json. -/
inductive Instr where
  /-- BYTETOBITS, the bit_packer on VALUE[7:0] (R82). -/
  | byteToBits
  /-- BITSTOBYTE, the bit_unpacker on up to 8 bit-bytes (R83). -/
  | bitsToByte
  /-- U32TOBITS, the header serializer on VALUE (R84). -/
  | u32ToBits
  /-- BITSTOU32, the header accumulator on 32 bit-bytes (R85). -/
  | bitsToU32
  /-- EXTRACTLSB, the LSB reader over a region (R86). -/
  | extractLsb
  /-- BITSTOBYTES, the bit_unpacker over a region (R87). -/
  | bitsToBytes
  /-- MAKEBITS, the bit_packer over a region (R88). -/
  | makeBits
  /-- EMBED, the Embedder algorithm (R89). -/
  | embed
  /-- EXTRACT, the Extractor algorithm (R94). -/
  | extract
  deriving DecidableEq, Repr

end Sys2Proof
end

