-- ==== Sys2Proof/WellFormed.lean ====
section
/-! DEFINITION. When a command word is well formed (30_encoding.md R56, R58, R59). A command itself holds no field that
could be ill formed (R57); what can be ill formed is the word: a non-zero reserved field, or a reserved opcode. -/

namespace Sys2Proof

/-- Every command is well formed: no constructor carries a field (R57). -/
abbrev Instr.WellFormed : Instr → Prop
  | .byteToBits | .bitsToByte | .u32ToBits | .bitsToU32 | .extractLsb | .bitsToBytes | .makeBits | .embed | .extract => True

/-- The reserved field RSVD, bits [31:4], is 0 (R56). -/
def reservedFieldOk (w : Word) : Bool := w.extractLsb' 4 28 == 0#28

/-- OPCODE, bits [3:0], is one of 0x1 to 0x9 (R58). -/
def opcodeOk (w : Word) : Bool := 1 ≤ (w.extractLsb' 0 4).toNat && (w.extractLsb' 0 4).toNat ≤ 9

/-- A legal command word (R59): exactly the words 0x00000001 to 0x00000009. -/
def commandWordOk (w : Word) : Bool := reservedFieldOk w && opcodeOk w

end Sys2Proof
end

