-- ==== Sys2Proof/Decode.lean ====
section
/-! DEFINITION. Decoding of command words, total over all 2^32 words (30_encoding.md R59), and the encoder written from
the same table (R58). -/

namespace Sys2Proof

/-- Why a word is ILLEGAL (R59, R60). Both reasons have the same effect, ILLEGAL_OP (log 17). -/
inductive Illegal where
  /-- Bits [31:4] are not all 0. -/
  | reservedField
  /-- OPCODE is 0x0 or 0xA to 0xF. -/
  | reservedOpcode
  deriving DecidableEq, Repr

/-- The opcode map of R58, on OPCODE = w[3:0]. -/
def decodeOpcode (op : BitVec 4) : Except Illegal Instr :=
  match op.toNat with
  | 0x1 => .ok .byteToBits
  | 0x2 => .ok .bitsToByte
  | 0x3 => .ok .u32ToBits
  | 0x4 => .ok .bitsToU32
  | 0x5 => .ok .extractLsb
  | 0x6 => .ok .bitsToBytes
  | 0x7 => .ok .makeBits
  | 0x8 => .ok .embed
  | 0x9 => .ok .extract
  | _ => .error .reservedOpcode

/-- `decode` of R59. -/
def decode (w : Word) : Except Illegal Instr :=
  if w.extractLsb' 4 28 = 0#28 then decodeOpcode (w.extractLsb' 0 4) else .error .reservedField

/-- The opcode number of a command (R58). -/
def opcode : Instr → BitVec 4
  | .byteToBits => 0x1
  | .bitsToByte => 0x2
  | .u32ToBits => 0x3
  | .bitsToU32 => 0x4
  | .extractLsb => 0x5
  | .bitsToBytes => 0x6
  | .makeBits => 0x7
  | .embed => 0x8
  | .extract => 0x9

/-- The command word of a command: RSVD = 0 above OPCODE (R56, R58). -/
def encode (i : Instr) : Word := 0#28 ++ opcode i

/-- The command word whose bits are `w`, `nbits` of them, every higher bit 0. A command is one 32-bit word (R56), and a
CSR access carries bit `k` of the word as bit `k` of the data (R47), so the number is the word. -/
def tableWord (nbits w : Nat) : Word := BitVec.ofNat 32 (w % 2 ^ nbits)

/-- What the decoder reads from the word that spec/opcode_table.json numbers as `w`. -/
def decodeTableWord (nbits w : Nat) : Option Instr :=
  match decode (tableWord nbits w) with
  | .ok i => some i
  | .error _ => none

end Sys2Proof
end

