-- ==== Sys2Proof/Config.lean ====
section
/-! DEFINITION. What an instance fixes and the spec leaves OPEN, and the free values: constants with no body, so that no
proof can rest on what they are. (BUF_SIZE is a parameter too; it stands in State as `bufLast`, log 1.) -/

namespace Sys2Proof

/-- CSR_BASE, the platform address of the CSR window: OPEN, no rule depends on it (R9; log 2). -/
opaque Config.csrBase : Nat

/-- BUF_BASE, the platform address of the buffer window: OPEN, no rule depends on it (R9; log 2). -/
opaque Config.bufBase : Nat

/-- The `n`th free byte: what a read of an unspecified cell, or a hazard read of the buffer, returns (R44, R113; log 3). -/
opaque Config.freeByte (n : Nat) : Byte

/-- The `n`th free word: what a hazard read of a CSR returns (R113; log 4). -/
opaque Config.freeWord (n : Nat) : Word

end Sys2Proof
end

