-- ==== Sys2Proof/Machine/State.lean ====
section
/-! DEFINITION. The state of the CORE as plain data (10_state.md R37), the model's own fields beside it, the outcome
types, and the state after reset. -/

namespace Sys2Proof.Machine

open Sys2Proof

/-- A step never ends in a fault: the type has no constructor, so no step can. Every error of R100 is a next state
(R77), the faults of R105 are RECORDED in the fault list while the machine goes on (R36, R44, R113), and
93_implementation_defined.md treats no behaviour as `stuck` (log 12). -/
inductive Fault where
  deriving DecidableEq, Repr

/-- Why an instruction has no meaning. -/
inductive Refusal where
  /-- Raised by no arm of exec in this model, since every command has its meaning; it would be safe (the model stops where
  the hardware goes on). -/
  | notModelled (mnemonic : String)
  deriving DecidableEq, Repr

/-- The two address spaces (20_memory.md R39). -/
inductive Space where
  | csr
  | buf
  deriving DecidableEq, Repr

/-- One host access as the bus carries it: space, offset or index, width in bits, direction, data (R61). Any width and
any offset can be written down; R45 and R46 say which have a meaning. The data of a write is 32 bits wide, and an 8-bit
write carries its byte in bits [7:0] (log 9). -/
inductive Access where
  | read (space : Space) (index width : Nat)
  | write (space : Space) (index width : Nat) (data : Word)
  deriving DecidableEq, Repr

/-- One operation of a host program (R61, R62): a single access, or `poll`, the only loop. -/
inductive HostOp where
  | access (a : Access)
  /-- Repeat `csrr STATUS` until bit 0 of the returned word is 0 (R62). -/
  | poll
  deriving DecidableEq, Repr

/-- Who takes a step (R19, R53). -/
inductive Agent where
  | host
  | engine
  /-- The reset event, at any step (R110). -/
  | reset
  deriving DecidableEq, Repr

/-- The faults the model records (R36, R105). They are not hardware state and not the machine's end. -/
inductive FaultRecord where
  /-- HAZARD: a host access that R113 forbids while BUSY. -/
  | hazard (a : Access)
  /-- UNINIT_READ: a read of an unspecified cell (R44). -/
  | uninitRead (index : Nat)
  /-- REFUSED_ACCESS: a host access of a width, alignment or offset the CORE does not define (R45, R46). -/
  | refusedAccess (space : Space) (index width : Nat)
  deriving DecidableEq, Repr

/-- A value the host has read (R42, R61): where, and the word, or the byte zero-extended (log 9). -/
structure ReadBack where
  space : Space
  index : Nat
  value : Word
  deriving DecidableEq, Repr

/-- The registers of the CSR window (R23), reserved offsets included. -/
inductive Csr where
  | cmd | status | srcAddr | srcLen | dstAddr | dstLen | carAddr | carLen | value | result | resultLen | errInfoA | errInfoB
  | rsvd34 | rsvd38 | rsvd3C
  deriving DecidableEq, Repr

/-- The fields of STATUS (R25, R37). Bits [31:8] are reserved, read 0 and are never set, so they are no field. -/
structure Status where
  busy : Bool
  done : Bool
  err : Bool
  haz : Bool
  errCode : BitVec 4
  deriving DecidableEq, Repr

/-- The seven operand registers (R26 to R29; conflict C4). -/
structure OperandRegs where
  srcAddr : Word
  srcLen : Word
  dstAddr : Word
  dstLen : Word
  carAddr : Word
  carLen : Word
  value : Word
  deriving DecidableEq, Repr

/-- The four result registers (R30 to R32). -/
structure ResultRegs where
  result : Word
  resultLen : Word
  errInfoA : Word
  errInfoB : Word
  deriving DecidableEq, Repr

/-- The model's own record of a run: the fault list of R36, oldest first, and how many free values were drawn (log 3). -/
structure Trail where
  draws : Nat
  faults : List FaultRecord
  deriving DecidableEq, Repr

/-- The buffer RAM (R40): (index, byte) pairs, indices strictly rising. A cell not listed is `unspecified`. -/
abbrev Memory := List Host.Cell

/-- The whole state (R37). `bufLast` is the parameter BUF_SIZE as the last index, BUF_SIZE - 1, which ranges over
[0, 2^28 - 1] (R8; log 1). `program`, `turns` and `reads` are the model's own: what is left of the host's program, whose
turn it is, and what the host has read, newest first (log 6). -/
structure State where
  opLatch : Word
  status : Status
  opnd : OperandRegs
  res : ResultRegs
  buf : Memory
  trail : Trail
  bufLast : Fin (2 ^ 28)
  program : List HostOp
  turns : List Agent
  reads : List ReadBack
  deriving DecidableEq, Repr

/-- STATUS after reset, 0x00000000: idle, no result, no error, no hazard (R37). -/
def Status.reset : Status := { busy := false, done := false, err := false, haz := false, errCode := 0 }

/-- The operand registers after reset (R37). -/
def OperandRegs.reset : OperandRegs :=
  { srcAddr := 0, srcLen := 0, dstAddr := 0, dstLen := 0, carAddr := 0, carLen := 0, value := 0 }

/-- The result registers after reset, and after an accepted CMD write (R37, R24). -/
def ResultRegs.reset : ResultRegs := { result := 0, resultLen := 0, errInfoA := 0, errInfoB := 0 }

/-- The state right after reset (R37, R110), before anything was recorded or asked for. BUF_SIZE is 256 here, as in
95_test_vectors.md: a DESIGN CHOICE (log 1) on which no statement rests. That the fault list is empty here is a DESIGN
CHOICE too: R37 and R110 say only that a reset event leaves it unchanged (log 13). -/
def State.reset : State :=
  { opLatch := 0
    status := Status.reset
    opnd := OperandRegs.reset
    res := ResultRegs.reset
    buf := []
    trail := { draws := 0, faults := [] }
    bufLast := 255
    program := []
    turns := []
    reads := [] }

end Sys2Proof.Machine
end

