-- ==== Sys2Proof/Machine/Flags.lean ====
section
/-! DEFINITION. STATUS: its word, the error codes, and every update of its fields (10_state.md R25, R38). -/

namespace Sys2Proof.Machine

open Sys2Proof

/-- The error codes a command can end in (60_exceptions.md R100). Code 0 is NONE, and 10 to 15 are never produced. -/
inductive ErrCode where
  | insufficientCapacity
  | truncatedHeader
  | truncatedPayload
  | illegalOp
  | range
  | overlap
  | length
  | dstSmall
  | badBit
  deriving DecidableEq, Repr

/-- The 4-bit ERRCODE of an error (R100). -/
def errCodeBits : ErrCode → BitVec 4
  | .insufficientCapacity => 1
  | .truncatedHeader => 2
  | .truncatedPayload => 3
  | .illegalOp => 4
  | .range => 5
  | .overlap => 6
  | .length => 7
  | .dstSmall => 8
  | .badBit => 9

/-- STATUS as the host reads it: BUSY in [0], DONE in [1], ERR in [2], HAZ in [3], ERRCODE in [7:4], the rest 0 (R25). -/
def statusWord (st : Status) : Word :=
  BitVec.ofNat 32 (st.busy.toNat + 2 * st.done.toNat + 4 * st.err.toNat + 8 * st.haz.toNat + 16 * st.errCode.toNat)

/-- STATUS after an accepted CMD write: BUSY set, DONE, ERR and ERRCODE cleared, HAZ as it was (R24). -/
def statusIssued (st : Status) : Status := { st with busy := true, done := false, err := false, errCode := 0 }

/-- STATUS after completion without error (R76). -/
def statusDone (st : Status) : Status := { st with busy := false, done := true, err := false, errCode := 0 }

/-- STATUS after completion with error (R77). -/
def statusError (code : ErrCode) (st : Status) : Status :=
  { st with busy := false, done := false, err := true, errCode := errCodeBits code }

/-- STATUS after a hazard: HAZ set (R113, R25; log 4). -/
def statusHazard (st : Status) : Status := { st with haz := true }

end Sys2Proof.Machine
end

