-- ==== Sys2Proof/Machine/Units.lean ====
section
/-! DEFINITION. The five datapath units as pure functions (40_units.md R63 to R73): bit_packer, frame_prepender,
lsb_embedder, lsb_extractor, bit_unpacker. A Bit sequence is a list, most significant bit first (R12). -/

namespace Sys2Proof.Machine

open Sys2Proof

/-- `ceil_div` (R13). -/
def ceilDiv (a b : Nat) : Nat := (a + b - 1) / b

/-- The bit-byte of a Bit: a byte that holds 0 or 1 (R41). -/
def bitByte (b : Bit) : Byte := if b then 1 else 0

/-- `pack_byte`: the 8 bits of a byte, most significant first; element `i` is `b[7-i]` (R64). -/
def packByte (b : Byte) : List Bit :=
  [b.getLsbD 7, b.getLsbD 6, b.getLsbD 5, b.getLsbD 4, b.getLsbD 3, b.getLsbD 2, b.getLsbD 1, b.getLsbD 0]

/-- `pack_bytes`: `pack_byte` of each byte in order, joined (R65). -/
def packBytes (bs : List Byte) : List Bit := bs.flatMap packByte

/-- `u32_to_bits`: 32 Bits, element `i` is `v[31-i]` (R66). -/
def packWord (v : Word) : List Bit := (List.range 32).map fun i => v.getLsbD (31 - i)

/-- `frame`: the 32-bit header, which counts payload BITS, then the payload's bits (R67). -/
def frame (payload : List Byte) : List Bit := packWord (BitVec.ofNat 32 (8 * payload.length)) ++ packBytes payload

/-- `embed_bit`: the carrier byte with its LSB set to `t` by a change of at most 1, which never wraps (R68). -/
def embedBit (c : Byte) (t : Bit) : Byte :=
  if c.toNat % 2 = t.toNat then c
  else if c.toNat % 2 = 0 then BitVec.ofNat 8 (c.toNat + 1)
  else BitVec.ofNat 8 (c.toNat - 1)

/-- `lsb` (R70). -/
def lsb (c : Byte) : Bit := c.getLsbD 0

/-- `lsbs` over a list (R70). -/
def lsbs (cs : List Byte) : List Bit := cs.map lsb

/-- `bits_to_u32`: shift left, insert the next bit at bit 0, so that the first bit is the most significant (R71). -/
def accumulate (bits : List Bit) : Nat := bits.foldl (fun acc b => 2 * acc + b.toNat) 0

/-- The sum of `bits[i] << (7 - i)` from place `i` on (R72). -/
def chunkSum : Nat → List Bit → Nat
  | _, [] => 0
  | i, b :: bs => (b.toNat <<< (7 - i)) + chunkSum (i + 1) bs

/-- `bits_to_byte`: up to 8 Bits, a short list in the high-order places with zeros below (R72; conflict C2). -/
def unpackByte (bits : List Bit) : Byte := BitVec.ofNat 8 (chunkSum 0 bits)

/-- `bits_to_bytes`: the byte of each chunk `bits[8j : 8j+8]`, the last chunk cut short by the list's end (R73). -/
def unpackBytes (bits : List Bit) : List Byte :=
  (List.range (ceilDiv bits.length 8)).map fun j => unpackByte ((bits.drop (8 * j)).take 8)

end Sys2Proof.Machine
end

