-- ==== Sys2Proof/Machine/Ops.lean ====
section
/-! DEFINITION. The named operations over the buffer RAM and the registers, and the command lifecycle: issue (R24),
completion (R76) and error completion (R77), which is the whole of the CORE's trap (R103). -/

namespace Sys2Proof.Machine

open Sys2Proof

/-! ### The buffer RAM -/

/-- BUF_SIZE (R8). -/
def bufSize (s : State) : Nat := s.bufLast.val + 1

/-- The canonical form of a memory: indices strictly rising. (An unlisted cell reads as no byte at all, so no listed
entry can equal what an unlisted one reads as.) -/
abbrev Memory.wf (m : Memory) : Prop := m.Pairwise fun c d => c.1 < d.1

/-- The cell at an index: a byte, or `none` where it is unspecified (R40). -/
def memRead : Memory → Nat → Option Byte
  | [], _ => none
  | (b, v) :: rest, a => if b = a then some v else memRead rest a

/-- The cell at an index made to hold a byte (R40, R43), in canonical form. -/
def memWrite : Memory → Nat → Byte → Memory
  | [], a, v => [(a, v)]
  | (b, w) :: rest, a, v =>
    if a < b then (a, v) :: (b, w) :: rest
    else if a = b then (a, v) :: rest
    else (b, w) :: memWrite rest a v

/-- Writes performed in the order of the list (R76). -/
def writeAll (m : Memory) (ws : List (Nat × Byte)) : Memory := ws.foldl (fun m w => memWrite m w.1 w.2) m

/-- `write_bytes`: one write per element, in index order (R81). -/
def writeBytes : Nat → List Byte → List (Nat × Byte)
  | _, [] => []
  | a, v :: vs => (a, v) :: writeBytes (a + 1) vs

/-- `write_bytes` of a Bit sequence, one bit-byte per Bit (R41). -/
def writeBits (a : Nat) (bits : List Bit) : List (Nat × Byte) := writeBytes a (bits.map bitByte)

/-! ### Faults and free values -/

/-- A fault added to the fault list, which is never cleared (R36). -/
def noteFault (f : FaultRecord) (t : Trail) : Trail := { t with faults := t.faults ++ [f] }

/-- The next free value taken: the counter moves on, so that no two draws are the same free value (log 3). -/
def noteDraw (t : Trail) : Trail := { t with draws := t.draws + 1 }

/-- `MemRead(a, 1)`, and the host's read of a cell: the byte, or where the cell is unspecified a freely drawn byte with
the fault UNINIT_READ recorded (R43, R44). -/
def readCell (m : Memory) (a : Nat) (t : Trail) : Byte × Trail :=
  match memRead m a with
  | some v => (v, t)
  | none => (Config.freeByte t.draws, noteFault (.uninitRead a) (noteDraw t))

/-- `read_bytes(addr, n)`, in index order (R80). -/
def readBytes (m : Memory) : Nat → Nat → Trail → List Byte × Trail
  | _, 0, t => ([], t)
  | a, n + 1, t =>
    ((readCell m a t).1 :: (readBytes m (a + 1) n (readCell m a t).2).1, (readBytes m (a + 1) n (readCell m a t).2).2)

/-! ### Command outcomes -/

/-- The data of `raise Error(code, a, b)` (R14, R77). -/
structure CmdError where
  code : ErrCode
  a : Nat
  b : Nat
  deriving DecidableEq, Repr

/-- The two outcomes of a command (R75). -/
inductive CmdOutcome where
  | done (result resultLen : Nat) (writes : List (Nat × Byte))
  | error (e : CmdError)
  deriving DecidableEq, Repr

/-- The first error of a list of checks in order, the only one reported (R102). -/
def firstError (checks : List (Option CmdError)) : Option CmdError := checks.findSome? id

/-- A check: `if bad: raise Error(code, a, b)`. -/
def raiseIf (bad : Bool) (code : ErrCode) (a b : Nat) : Option CmdError := if bad then some ⟨code, a, b⟩ else none

/-- `read_bits(addr, n)` from offset `j` on: the Bits, or BADBIT at the first bit-byte above 1, after which nothing is
read (R80). -/
def readBitsFrom (m : Memory) (addr : Nat) : Nat → Nat → Trail → Except CmdError (List Bit) × Trail
  | _, 0, t => (.ok [], t)
  | j, n + 1, t =>
    if (readCell m (addr + j) t).1.toNat > 1 then
      (.error ⟨.badBit, j, (readCell m (addr + j) t).1.toNat⟩, (readCell m (addr + j) t).2)
    else
      ((readBitsFrom m addr (j + 1) n (readCell m (addr + j) t).2).1.map (((readCell m (addr + j) t).1.toNat == 1) :: ·),
        (readBitsFrom m addr (j + 1) n (readCell m (addr + j) t).2).2)

/-- `read_bits(addr, n)` (R80). -/
def readBits (m : Memory) (addr n : Nat) (t : Trail) : Except CmdError (List Bit) × Trail := readBitsFrom m addr 0 n t

/-! ### Issue and completion -/

/-- What an accepted CMD write of `w` does, in one step (R24). -/
def issueCommand (w : Word) (s : State) : State :=
  { s with opLatch := w, status := statusIssued s.status, res := ResultRegs.reset }

/-- `complete(result, result_len)` with the command's writes (R76). ERRINFO_A and ERRINFO_B stay as they are (log 7). -/
def complete (result resultLen : Nat) (writes : List (Nat × Byte)) (s : State) : State :=
  { s with
    buf := writeAll s.buf writes
    status := statusDone s.status
    res := { s.res with result := BitVec.ofNat 32 result, resultLen := BitVec.ofNat 32 resultLen } }

/-- `raise Error(code, a, b)` (R77, R103): no cell changes, RESULT and RESULT_LEN stay as they are (log 7). -/
def raiseError (e : CmdError) (s : State) : State :=
  { s with
    status := statusError e.code s.status
    res := { s.res with errInfoA := BitVec.ofNat 32 e.a, errInfoB := BitVec.ofNat 32 e.b } }

/-- The end of an engine step: R76 or R77, in one transition (R75), with the faults and draws of the command's reads. -/
def finishCommand (r : CmdOutcome × Trail) (s : State) : State :=
  match r.1 with
  | .done result resultLen writes => complete result resultLen writes { s with trail := r.2 }
  | .error e => raiseError e { s with trail := r.2 }

/-- The outcome of a command that raises the first failed check, and otherwise goes on (R75, R102). -/
def afterChecks (checks : List (Option CmdError)) (t : Trail) (go : Trail → CmdOutcome × Trail) : CmdOutcome × Trail :=
  match firstError checks with
  | some e => (.error e, t)
  | none => go t

/-- The engine step of an ILLEGAL word: `raise Error(ILLEGAL_OP, w, 0)` (R101). -/
def illegalOp (s : State) : State := raiseError ⟨.illegalOp, s.opLatch.toNat, 0⟩ s

end Sys2Proof.Machine
end

