-- ==== Sys2Proof/Machine/Operands.lean ====
section
/-! DEFINITION. Operand forms: the three regions and their checks (00_scope.md R15, 40_units.md R78, R79), and VALUE
(10_state.md R29). -/

namespace Sys2Proof.Machine

open Sys2Proof

/-- The regions a command can use (R57). -/
inductive RegionName where
  | src
  | dst
  | car
  deriving DecidableEq, Repr

/-- A region: a buffer index and a length in bytes, unbounded naturals (R15, R57). -/
structure Region where
  addr : Nat
  len : Nat
  deriving DecidableEq, Repr

/-- The region codes of R78. -/
def regionCode : RegionName → Nat
  | .src => 1
  | .dst => 2
  | .car => 3

/-- The region a pair of operand registers names, zero-extended (R26 to R28, R57). -/
def regionOf (o : OperandRegs) : RegionName → Region
  | .src => ⟨o.srcAddr.toNat, o.srcLen.toNat⟩
  | .dst => ⟨o.dstAddr.toNat, o.dstLen.toNat⟩
  | .car => ⟨o.carAddr.toNat, o.carLen.toNat⟩

/-- `in_range`: the sum is exact, with no wrap (R15). -/
def inRange (size : Nat) (r : Region) : Bool := r.addr + r.len ≤ size

/-- Two regions share at least one index; a region of length 0 overlaps nothing (R15; log 10). -/
def overlaps (r q : Region) : Bool := r.len != 0 && q.len != 0 && r.addr < q.addr + q.len && q.addr < r.addr + r.len

/-- `check_range` (R78). -/
def checkRange (s : State) (n : RegionName) : Option CmdError :=
  raiseIf (!inRange (bufSize s) (regionOf s.opnd n)) .range (regionCode n) 0

/-- `check_overlap` (R79). -/
def checkOverlap (s : State) (n k : RegionName) : Option CmdError :=
  raiseIf (overlaps (regionOf s.opnd n) (regionOf s.opnd k)) .overlap (regionCode n) (regionCode k)

/-- The destination check, `need > DST_LEN` (R82, R84, R86 to R88, R94). -/
def checkDst (s : State) (need : Nat) : Option CmdError :=
  raiseIf (need > s.opnd.dstLen.toNat) .dstSmall need s.opnd.dstLen.toNat

/-- `VALUE[7:0]`, the input byte of BYTETOBITS (R29, R82). -/
def valueByte (o : OperandRegs) : Byte := o.value.setWidth 8

end Sys2Proof.Machine
end

