-- ==== Sys2Proof/Machine/Bus.lean ====
section
/-! DEFINITION. The host's side: CSR and buffer accesses (10_state.md R23 to R33, 20_memory.md R42 to R46), hazards (R113),
the reset event (R110), the host-program notation (R61, R62), and whose turn it is (R19, R53, R115). -/

namespace Sys2Proof.Machine

open Sys2Proof

/-! ### The CSR window -/

/-- The offset of a register in the CSR window (R23). -/
def csrOffset : Csr → Nat
  | .cmd => 0x00
  | .status => 0x04
  | .srcAddr => 0x08
  | .srcLen => 0x0C
  | .dstAddr => 0x10
  | .dstLen => 0x14
  | .carAddr => 0x18
  | .carLen => 0x1C
  | .value => 0x20
  | .result => 0x24
  | .resultLen => 0x28
  | .errInfoA => 0x2C
  | .errInfoB => 0x30
  | .rsvd34 => 0x34
  | .rsvd38 => 0x38
  | .rsvd3C => 0x3C

/-- The register at an offset; none at a misaligned offset or at 0x40 and above (R23, R45). -/
def csrAt : Nat → Option Csr
  | 0x00 => some .cmd
  | 0x04 => some .status
  | 0x08 => some .srcAddr
  | 0x0C => some .srcLen
  | 0x10 => some .dstAddr
  | 0x14 => some .dstLen
  | 0x18 => some .carAddr
  | 0x1C => some .carLen
  | 0x20 => some .value
  | 0x24 => some .result
  | 0x28 => some .resultLen
  | 0x2C => some .errInfoA
  | 0x30 => some .errInfoB
  | 0x34 => some .rsvd34
  | 0x38 => some .rsvd38
  | 0x3C => some .rsvd3C
  | _ => none

/-- The word a CSR read returns: CMD and the reserved offsets read 0 (R24, R25, R32, R33). -/
def readCsr (c : Csr) (s : State) : Word :=
  match c with
  | .cmd => 0
  | .status => statusWord s.status
  | .srcAddr => s.opnd.srcAddr
  | .srcLen => s.opnd.srcLen
  | .dstAddr => s.opnd.dstAddr
  | .dstLen => s.opnd.dstLen
  | .carAddr => s.opnd.carAddr
  | .carLen => s.opnd.carLen
  | .value => s.opnd.value
  | .result => s.res.result
  | .resultLen => s.res.resultLen
  | .errInfoA => s.res.errInfoA
  | .errInfoB => s.res.errInfoB
  | .rsvd34 => 0
  | .rsvd38 => 0
  | .rsvd3C => 0

/-- A CSR write while idle: CMD issues a command (R24), an operand register takes any word (R26 to R29), a write to a
read-only register or a reserved offset is ignored (R32, R33). -/
def writeCsr (c : Csr) (v : Word) (s : State) : State :=
  match c with
  | .cmd => issueCommand v s
  | .status => s
  | .srcAddr => { s with opnd := { s.opnd with srcAddr := v } }
  | .srcLen => { s with opnd := { s.opnd with srcLen := v } }
  | .dstAddr => { s with opnd := { s.opnd with dstAddr := v } }
  | .dstLen => { s with opnd := { s.opnd with dstLen := v } }
  | .carAddr => { s with opnd := { s.opnd with carAddr := v } }
  | .carLen => { s with opnd := { s.opnd with carLen := v } }
  | .value => { s with opnd := { s.opnd with value := v } }
  | .result => s
  | .resultLen => s
  | .errInfoA => s
  | .errInfoB => s
  | .rsvd34 => s
  | .rsvd38 => s
  | .rsvd3C => s

/-- The platform address at which the host sees an offset or index of a window (R9; log 2). No rule reads it. -/
def platformAddress : Space → Nat → Nat
  | .csr, i => Config.csrBase + i
  | .buf, i => Config.bufBase + i

/-! ### Host accesses -/

/-- What an access reaches. -/
inductive Target where
  | reg (c : Csr)
  | cell (i : Nat)
  deriving DecidableEq, Repr

/-- The target of an access of a defined form: a 32-bit access at a register's offset (R45), or an 8-bit access at an
index below BUF_SIZE (R46); none for every other access. -/
def target (s : State) (sp : Space) (i width : Nat) : Option Target :=
  match sp with
  | .csr => if width = 32 then (csrAt i).map .reg else none
  | .buf => if width = 8 ∧ i < bufSize s then some (.cell i) else none

/-- A fault recorded, and nothing else changed (R36). -/
def recordFault (f : FaultRecord) (s : State) : State := { s with trail := noteFault f s.trail }

/-- A value handed to the host (R42, R61). -/
def handBack (sp : Space) (i : Nat) (v : Word) (s : State) : State := { s with reads := ⟨sp, i, v⟩ :: s.reads }

/-- A hazard: HAZ is set and the fault HAZARD recorded, with no other effect (R113; log 4, 5). -/
def hazard (a : Access) (s : State) : State := recordFault (.hazard a) { s with status := statusHazard s.status }

/-- A free value taken for a hazard read (R113; log 4). -/
def drawFree (s : State) : State := { s with trail := noteDraw s.trail }

/-- A host read. While BUSY a read of a cell, specified or not, is the hazard of R113 alone: it records HAZARD, no
UNINIT_READ, and hands back a free byte (DEDUCED, log 19). -/
def hostRead (sp : Space) (i width : Nat) (s : State) : State :=
  match target s sp i width with
  | none => recordFault (.refusedAccess sp i width) s
  | some (.reg c) =>
    if s.status.busy ∧ c ≠ .status then
      handBack sp i (Config.freeWord s.trail.draws) (hazard (.read sp i width) (drawFree s))
    else handBack sp i (readCsr c s) s
  | some (.cell j) =>
    if s.status.busy then
      handBack sp i ((Config.freeByte s.trail.draws).setWidth 32) (hazard (.read sp i width) (drawFree s))
    else
      handBack sp i ((readCell s.buf j s.trail).1.setWidth 32) { s with trail := (readCell s.buf j s.trail).2 }

/-- A host write. -/
def hostWrite (sp : Space) (i width : Nat) (data : Word) (s : State) : State :=
  match target s sp i width with
  | none => recordFault (.refusedAccess sp i width) s
  | some (.reg c) => if s.status.busy then hazard (.write sp i width data) s else writeCsr c data s
  | some (.cell j) =>
    if s.status.busy then hazard (.write sp i width data) s
    else { s with buf := memWrite s.buf j (data.setWidth 8) }

/-- One host access, a step of its own (R49). -/
def hostAccess (a : Access) (s : State) : State :=
  match a with
  | .read sp i width => hostRead sp i width s
  | .write sp i width data => hostWrite sp i width data s

/-! ### The reset event -/

/-- The reset event (R110, R111): every CSR field and OPLATCH 0, every cell unspecified, the fault list as it was. BUF_SIZE
is a parameter and stays; so do the model's own fields (log 13). -/
def resetEvent (s : State) : State :=
  { s with
    opLatch := 0
    status := Status.reset
    opnd := OperandRegs.reset
    res := ResultRegs.reset
    buf := [] }

/-! ### Host-program notation (R61, R62) -/

/-- `csrw NAME, v`. -/
def csrw (c : Csr) (v : Word) : HostOp := .access (.write .csr (csrOffset c) 32 v)

/-- `csrr NAME`. -/
def csrr (c : Csr) : HostOp := .access (.read .csr (csrOffset c) 32)

/-- `bufw i, b`. -/
def bufw (i : Nat) (b : Byte) : HostOp := .access (.write .buf i 8 (b.setWidth 32))

/-- `bufr i`. -/
def bufr (i : Nat) : HostOp := .access (.read .buf i 8)

/-- `cmd M`. -/
def cmdOps (m : Instr) : List HostOp := [csrw .cmd (encode m)]

/-- `run M`: `cmd M` then `poll`. -/
def runOps (m : Instr) : List HostOp := cmdOps m ++ [.poll]

/-- `fill i, [b0, …, bk]`. -/
def fillOps : Nat → List Byte → List HostOp
  | _, [] => []
  | i, b :: bs => bufw i b :: fillOps (i + 1) bs

/-- `dump i, n`. -/
def dumpOps (i n : Nat) : List HostOp := (List.range n).map fun k => bufr (i + k)

/-- `regions S, s, D, d, C, c`. -/
def regionsOps (srcA srcL dstA dstL carA carL : Word) : List HostOp :=
  [csrw .srcAddr srcA, csrw .srcLen srcL, csrw .dstAddr dstA, csrw .dstLen dstL, csrw .carAddr carA, csrw .carLen carL]

/-! ### Turns -/

/-- The host's next operation. `poll` is a `csrr STATUS` that stays in the program until bit 0 of the word it returned is 0
(R62). A host with no operation left does nothing. -/
def hostMove (s : State) : State :=
  match s.program with
  | [] => s
  | .access a :: ops => hostAccess a { s with program := ops }
  | .poll :: ops =>
    hostRead .csr (csrOffset .status) 32
      (if (readCsr .status s).getLsbD 0 then s else { s with program := ops })

/-- Whose turn it is (R19, R53): the next of `turns`; once these are used up, the engine if BUSY, else the host, so that the
engine step is taken after finitely many host steps (R115; log 6). -/
def whoMoves (s : State) : Agent :=
  match s.turns with
  | [] => if s.status.busy then .engine else .host
  | a :: _ => a

/-- The turn used up. -/
def takeTurn (s : State) : State := { s with turns := s.turns.tail }

end Sys2Proof.Machine
end

