-- ==== Sys2Proof/Machine/BitCodec.lean ====
section
/-! DEFINITION. The seven BitCodec commands (41_bitcodec.md R82 to R88). Each `outcome…` is the pseudocode of its rule, and
each `exec…` is the engine step of that command (R75). -/

namespace Sys2Proof.Machine

open Sys2Proof

/-- BYTETOBITS (R82). -/
def outcomeByteToBits (s : State) : CmdOutcome × Trail :=
  afterChecks [checkRange s .dst, checkDst s 8] s.trail fun t =>
    (.done 0 8 (writeBits s.opnd.dstAddr.toNat (packByte (valueByte s.opnd))), t)

def execByteToBits (s : State) : Host.Outcome State Fault Refusal := .next (finishCommand (outcomeByteToBits s) s)

/-- BITSTOBYTE (R83). -/
def outcomeBitsToByte (s : State) : CmdOutcome × Trail :=
  afterChecks [checkRange s .src, raiseIf (s.opnd.srcLen.toNat > 8) .length 8 s.opnd.srcLen.toNat] s.trail fun t =>
    match readBits s.buf s.opnd.srcAddr.toNat s.opnd.srcLen.toNat t with
    | (.error e, t') => (.error e, t')
    | (.ok bits, t') => (.done (unpackByte bits).toNat 0 [], t')

def execBitsToByte (s : State) : Host.Outcome State Fault Refusal := .next (finishCommand (outcomeBitsToByte s) s)

/-- U32TOBITS (R84). -/
def outcomeU32ToBits (s : State) : CmdOutcome × Trail :=
  afterChecks [checkRange s .dst, checkDst s 32] s.trail fun t =>
    (.done 0 32 (writeBits s.opnd.dstAddr.toNat (packWord s.opnd.value)), t)

def execU32ToBits (s : State) : Host.Outcome State Fault Refusal := .next (finishCommand (outcomeU32ToBits s) s)

/-- BITSTOU32 (R85). -/
def outcomeBitsToU32 (s : State) : CmdOutcome × Trail :=
  afterChecks [checkRange s .src, raiseIf (s.opnd.srcLen.toNat != 32) .length 32 s.opnd.srcLen.toNat] s.trail fun t =>
    match readBits s.buf s.opnd.srcAddr.toNat 32 t with
    | (.error e, t') => (.error e, t')
    | (.ok bits, t') => (.done (accumulate bits) 0 [], t')

def execBitsToU32 (s : State) : Host.Outcome State Fault Refusal := .next (finishCommand (outcomeBitsToU32 s) s)

/-- The register-only checks of the commands from SRC to DST, for `need` bytes written (R86, R87, R88). -/
def srcDstChecks (s : State) (need : Nat) : List (Option CmdError) :=
  [checkRange s .src, checkRange s .dst, checkOverlap s .src .dst, checkDst s need]

/-- EXTRACTLSB (R86). -/
def outcomeExtractLsb (s : State) : CmdOutcome × Trail :=
  afterChecks (srcDstChecks s s.opnd.srcLen.toNat) s.trail fun t =>
    let cs := readBytes s.buf s.opnd.srcAddr.toNat s.opnd.srcLen.toNat t
    (.done 0 s.opnd.srcLen.toNat (writeBits s.opnd.dstAddr.toNat (lsbs cs.1)), cs.2)

def execExtractLsb (s : State) : Host.Outcome State Fault Refusal := .next (finishCommand (outcomeExtractLsb s) s)

/-- BITSTOBYTES (R87). -/
def outcomeBitsToBytes (s : State) : CmdOutcome × Trail :=
  afterChecks (srcDstChecks s (ceilDiv s.opnd.srcLen.toNat 8)) s.trail fun t =>
    match readBits s.buf s.opnd.srcAddr.toNat s.opnd.srcLen.toNat t with
    | (.error e, t') => (.error e, t')
    | (.ok bits, t') =>
      (.done 0 (ceilDiv s.opnd.srcLen.toNat 8) (writeBytes s.opnd.dstAddr.toNat (unpackBytes bits)), t')

def execBitsToBytes (s : State) : Host.Outcome State Fault Refusal := .next (finishCommand (outcomeBitsToBytes s) s)

/-- MAKEBITS (R88). -/
def outcomeMakeBits (s : State) : CmdOutcome × Trail :=
  afterChecks (srcDstChecks s (8 * s.opnd.srcLen.toNat)) s.trail fun t =>
    let bs := readBytes s.buf s.opnd.srcAddr.toNat s.opnd.srcLen.toNat t
    (.done 0 (8 * s.opnd.srcLen.toNat) (writeBits s.opnd.dstAddr.toNat (packBytes bs.1)), bs.2)

def execMakeBits (s : State) : Host.Outcome State Fault Refusal := .next (finishCommand (outcomeMakeBits s) s)

end Sys2Proof.Machine
end

