-- ==== Sys2Proof/Machine/Embedder.lean ====
section
/-! DEFINITION. EMBED (42_embedder.md R89 to R93): the frame of the payload written into the LSBs of the carrier. -/

namespace Sys2Proof.Machine

open Sys2Proof

/-- `F`, the frame's length in bits and the number of carrier bytes it covers (R89). -/
def frameLen (payloadLen : Nat) : Nat := 32 + 8 * payloadLen

/-- Embedder step 3: the carrier's first bytes with their LSBs set to the frame's bits (R89). -/
def embedFrame (cs : List Byte) (fr : List Bit) : List Byte := List.zipWith embedBit cs fr

/-- EMBED (R89). -/
def outcomeEmbed (s : State) : CmdOutcome × Trail :=
  afterChecks
    [checkRange s .src, checkRange s .car, checkOverlap s .src .car,
      raiseIf (frameLen s.opnd.srcLen.toNat > s.opnd.carLen.toNat) .insufficientCapacity
        (frameLen s.opnd.srcLen.toNat) s.opnd.carLen.toNat]
    s.trail fun t =>
    let payload := readBytes s.buf s.opnd.srcAddr.toNat s.opnd.srcLen.toNat t
    let cs := readBytes s.buf s.opnd.carAddr.toNat (frameLen s.opnd.srcLen.toNat) payload.2
    (.done (8 * s.opnd.srcLen.toNat) (frameLen s.opnd.srcLen.toNat)
      (writeBytes s.opnd.carAddr.toNat (embedFrame cs.1 (frame payload.1))), cs.2)

def execEmbed (s : State) : Host.Outcome State Fault Refusal := .next (finishCommand (outcomeEmbed s) s)

end Sys2Proof.Machine
end

