-- ==== Sys2Proof/Machine/Extractor.lean ====
section
/-! DEFINITION. EXTRACT (43_extractor.md R94 to R98): the payload recovered from the LSBs of the carrier, with the bound
of conflict C1 (90_conflicts.md). -/

namespace Sys2Proof.Machine

open Sys2Proof

/-- Extractor steps 3 to 6, after the header `n` was read (R94). -/
def extractPayload (s : State) (n : Nat) (t : Trail) : CmdOutcome × Trail :=
  afterChecks
    [raiseIf (n > s.opnd.carLen.toNat - 32) .truncatedPayload n (s.opnd.carLen.toNat - 32), checkDst s (ceilDiv n 8)]
    t fun t =>
    let cs := readBytes s.buf (s.opnd.carAddr.toNat + 32) n t
    (.done n (ceilDiv n 8) (writeBytes s.opnd.dstAddr.toNat (unpackBytes (lsbs cs.1))), cs.2)

/-- EXTRACT (R94). -/
def outcomeExtract (s : State) : CmdOutcome × Trail :=
  afterChecks
    [checkRange s .dst, checkRange s .car, checkOverlap s .car .dst,
      raiseIf (s.opnd.carLen.toNat < 32) .truncatedHeader 32 s.opnd.carLen.toNat]
    s.trail fun t =>
    let header := readBytes s.buf s.opnd.carAddr.toNat 32 t
    extractPayload s (accumulate (lsbs header.1)) header.2

def execExtract (s : State) : Host.Outcome State Fault Refusal := .next (finishCommand (outcomeExtract s) s)

end Sys2Proof.Machine
end

