-- ==== Sys2Proof/Machine/Dispatch.lean ====
section
/-! DEFINITION. The engine step of each decoded command (40_units.md R75): one arm per constructor. -/

namespace Sys2Proof.Machine

open Sys2Proof

def exec (i : Instr) (s : State) : Host.Outcome State Fault Refusal :=
  match i with
  | .byteToBits => Sys2Proof.Machine.execByteToBits s
  | .bitsToByte => Sys2Proof.Machine.execBitsToByte s
  | .u32ToBits => Sys2Proof.Machine.execU32ToBits s
  | .bitsToU32 => Sys2Proof.Machine.execBitsToU32 s
  | .extractLsb => Sys2Proof.Machine.execExtractLsb s
  | .bitsToBytes => Sys2Proof.Machine.execBitsToBytes s
  | .makeBits => Sys2Proof.Machine.execMakeBits s
  | .embed => Sys2Proof.Machine.execEmbed s
  | .extract => Sys2Proof.Machine.execExtract s

end Sys2Proof.Machine
end

