-- ==== Sys2Proof/Machine/Engine.lean ====
section
/-! DEFINITION. The engine step of whatever word is latched (40_units.md R75, 60_exceptions.md R101). -/

namespace Sys2Proof.Machine

open Sys2Proof

/-- The engine step: the latched word is decoded and run; an ILLEGAL word ends in ILLEGAL_OP (R75, R101). -/
def engineStep (s : State) : Host.Outcome State Fault Refusal :=
  match decode s.opLatch with
  | .ok i => exec i s
  | .error _ => .next (illegalOp s)

end Sys2Proof.Machine
end

