-- ==== Sys2Proof/Machine/Step.lean ====
section
/-! DEFINITION. One step of the machine (10_state.md R19, 20_memory.md R53): a host operation, an engine step or the reset
event. -/

namespace Sys2Proof.Machine

open Sys2Proof

/-- One step. An engine turn while STATUS.BUSY = 0 does nothing, since the engine has a step only while BUSY (R19; log 18). -/
def step (s : State) : Host.Outcome State Fault Refusal :=
  match whoMoves s with
  | .host => .next (hostMove (takeTurn s))
  | .reset => .next (resetEvent (takeTurn s))
  | .engine => if s.status.busy then engineStep (takeTurn s) else .next (takeTurn s)

/-- `s` just after an accepted CMD write of the word (R24), with the next turn the engine's, so that the next step runs it
(log 6): the CORE fetches nothing, and a command reaches the engine only so (R22). -/
def State.withFetchWord (s : State) (nbits w : Nat) : State :=
  { issueCommand (tableWord nbits w) s with turns := .engine :: s.turns }

end Sys2Proof.Machine
end

