-- ==== Sys2Proof/Safety.lean ====
section
/-! DEFINITION. The terms claims use: what a buffer region holds, the legal values of STATUS and the result registers, the
invariant of the machine, and the end of a run with what is observed there (R117). -/

namespace Sys2Proof.Machine

open Sys2Proof

/-! ### Regions of the buffer -/

/-- The cells from index `a` on hold the bytes `bs`, in order; in particular every one of them is specified. -/
def HoldsBytes (m : Memory) (a : Nat) (bs : List Byte) : Prop := ∀ j (h : j < bs.length), memRead m (a + j) = some bs[j]

/-- The cells from index `a` on hold the Bit sequence `bits`, one bit-byte per Bit (R41). -/
abbrev HoldsBits (m : Memory) (a : Nat) (bits : List Bit) : Prop := HoldsBytes m a (bits.map bitByte)

/-- Every cell outside the `n` cells from index `a` on reads the same in both memories. -/
def SameOutside (m m' : Memory) (a n : Nat) : Prop := ∀ i, ¬(a ≤ i ∧ i < a + n) → memRead m' i = memRead m i

/-- Everything but the buffer, STATUS, the result registers and the fault list with its draws is the same: OPLATCH, the
operand registers, BUF_SIZE and the host's side. -/
structure SameRest (s t : State) : Prop where
  opLatch : t.opLatch = s.opLatch
  opnd : t.opnd = s.opnd
  bufLast : t.bufLast = s.bufLast
  program : t.program = s.program
  turns : t.turns = s.turns
  reads : t.reads = s.reads

/-- A command completed without error (R76): STATUS shows DONE alone beside HAZ as it was, RESULT and RESULT_LEN hold the
two numbers as they are, and ERRINFO_A and ERRINFO_B stay 0. -/
structure CompletedWith (result resultLen : Nat) (s t : State) : Prop where
  status : t.status = { busy := false, done := true, err := false, haz := s.status.haz, errCode := 0 }
  result : t.res.result.toNat = result
  resultLen : t.res.resultLen.toNat = resultLen
  errInfoA : s.res.errInfoA = 0 → t.res.errInfoA = 0
  errInfoB : s.res.errInfoB = 0 → t.res.errInfoB = 0
  rest : SameRest s t

/-- A command completed without error and wrote the bytes `bs` from index `a` on, and nothing else; it read no unspecified
cell. -/
structure Succeeded (result resultLen a : Nat) (bs : List Byte) (s t : State) : Prop where
  completed : CompletedWith result resultLen s t
  stored : HoldsBytes t.buf a bs
  outside : SameOutside s.buf t.buf a bs.length
  trail : t.trail = s.trail

/-- A command ended in the error with these numbers (R77, R103): STATUS shows ERR and the code beside HAZ as it was,
ERRINFO_A and ERRINFO_B hold the two numbers as they are, RESULT and RESULT_LEN stay 0, and the buffer is the very
same; it read no unspecified cell. -/
structure FailedWith (code a b : Nat) (s t : State) : Prop where
  status : t.status = { busy := false, done := false, err := true, haz := s.status.haz, errCode := BitVec.ofNat 4 code }
  errInfoA : t.res.errInfoA.toNat = a
  errInfoB : t.res.errInfoB.toNat = b
  result : s.res.result = 0 → t.res.result = 0
  resultLen : s.res.resultLen = 0 → t.res.resultLen = 0
  buf : t.buf = s.buf
  trail : t.trail = s.trail
  rest : SameRest s t

/-! ### The regions of a state, as bounds -/

/-- The SRC region lies in the buffer (R15). -/
abbrev srcOk (s : State) : Prop := s.opnd.srcAddr.toNat + s.opnd.srcLen.toNat ≤ bufSize s

/-- The DST region lies in the buffer (R15). -/
abbrev dstOk (s : State) : Prop := s.opnd.dstAddr.toNat + s.opnd.dstLen.toNat ≤ bufSize s

/-- The CAR region lies in the buffer (R15). -/
abbrev carOk (s : State) : Prop := s.opnd.carAddr.toNat + s.opnd.carLen.toNat ≤ bufSize s

/-- Two regions share no index (R15), said index by index. -/
def ShareNone (r q : Region) : Prop := ∀ i, ¬((r.addr ≤ i ∧ i < r.addr + r.len) ∧ (q.addr ≤ i ∧ i < q.addr + q.len))

/-- An index lies in a region (R15). -/
abbrev InRegion (r : Region) (i : Nat) : Prop := r.addr ≤ i ∧ i < r.addr + r.len

/-! ### What a command uses (R57) -/

/-- The operands a command uses, by the table of R57, with every other one 0; BYTETOBITS uses VALUE[7:0] alone. -/
def usedOperands : Instr → OperandRegs → OperandRegs
  | .byteToBits, o =>
    { OperandRegs.reset with dstAddr := o.dstAddr, dstLen := o.dstLen, value := (o.value.setWidth 8).setWidth 32 }
  | .bitsToByte, o => { OperandRegs.reset with srcAddr := o.srcAddr, srcLen := o.srcLen }
  | .u32ToBits, o => { OperandRegs.reset with dstAddr := o.dstAddr, dstLen := o.dstLen, value := o.value }
  | .bitsToU32, o => { OperandRegs.reset with srcAddr := o.srcAddr, srcLen := o.srcLen }
  | .extractLsb, o =>
    { OperandRegs.reset with srcAddr := o.srcAddr, srcLen := o.srcLen, dstAddr := o.dstAddr, dstLen := o.dstLen }
  | .bitsToBytes, o =>
    { OperandRegs.reset with srcAddr := o.srcAddr, srcLen := o.srcLen, dstAddr := o.dstAddr, dstLen := o.dstLen }
  | .makeBits, o =>
    { OperandRegs.reset with srcAddr := o.srcAddr, srcLen := o.srcLen, dstAddr := o.dstAddr, dstLen := o.dstLen }
  | .embed, o =>
    { OperandRegs.reset with srcAddr := o.srcAddr, srcLen := o.srcLen, carAddr := o.carAddr, carLen := o.carLen }
  | .extract, o =>
    { OperandRegs.reset with dstAddr := o.dstAddr, dstLen := o.dstLen, carAddr := o.carAddr, carLen := o.carLen }

/-- The cells a command may read: those of the regions its row of R57 marks as read. -/
def MayRead : Instr → OperandRegs → Nat → Prop
  | .byteToBits, _, _ => False
  | .u32ToBits, _, _ => False
  | .bitsToByte, o, a => InRegion (regionOf o .src) a
  | .bitsToU32, o, a => InRegion (regionOf o .src) a
  | .extractLsb, o, a => InRegion (regionOf o .src) a
  | .bitsToBytes, o, a => InRegion (regionOf o .src) a
  | .makeBits, o, a => InRegion (regionOf o .src) a
  | .embed, o, a => InRegion (regionOf o .src) a ∨ InRegion (regionOf o .car) a
  | .extract, o, a => InRegion (regionOf o .car) a

/-- The UNINIT_READ records of a read of `n` cells from index `a` on, in index order (R44; log 11). -/
def uninitRecords (m : Memory) (a n : Nat) : List FaultRecord :=
  ((List.range n).filter fun j => (memRead m (a + j)).isNone).map fun j => FaultRecord.uninitRead (a + j)

/-- The bytes `bs`, read from the cells from index `a` on, are the cells' own wherever these are specified (R43, R44). -/
def AgreesWith (m : Memory) (a : Nat) (bs : List Byte) : Prop :=
  ∀ j (h : j < bs.length) v, memRead m (a + j) = some v → bs[j] = v

/-- The two ends of a command that reads `n` bit-bytes of SRC, from `s` to `t`, whatever cells are unspecified (R44, R80).
Either all of them were read as the Bits `bits`, and `completed bits` says the rest; or the first one above 1 was `v`
behind the Bits `pre`, nothing was read after it, and the command ended in BADBIT. The cells read that are unspecified
are in the fault list, in the order of the reads (log 11), and their bytes are free (log 3). -/
def BitReadEnds (n : Nat) (completed : List Bit → Prop) (s t : State) : Prop :=
  (∃ bits : List Bit, bits.length = n ∧ AgreesWith s.buf s.opnd.srcAddr.toNat (bits.map bitByte) ∧
      t.trail.faults = s.trail.faults ++ uninitRecords s.buf s.opnd.srcAddr.toNat n ∧ completed bits) ∨
    ∃ (pre : List Bit) (v : Byte), pre.length < n ∧ 1 < v.toNat ∧
      AgreesWith s.buf s.opnd.srcAddr.toNat (pre.map bitByte ++ [v]) ∧
      t.trail.faults = s.trail.faults ++ uninitRecords s.buf s.opnd.srcAddr.toNat (pre.length + 1) ∧
      FailedWith 9 pre.length v.toNat { s with trail := t.trail } t

/-! ### The invariant -/

/-- The legal values of STATUS (R25): at most one of BUSY, DONE and ERR; ERRCODE non-zero exactly when ERR; and no code
above 9, since 10 to 15 are never produced (R100). -/
structure Status.Legal (st : Status) : Prop where
  busyAlone : st.busy = true → st.done = false ∧ st.err = false
  doneAlone : st.done = true → st.err = false
  errCode : st.errCode ≠ 0 ↔ st.err = true
  errCodeLe : st.errCode.toNat ≤ 9

/-- What every step keeps, from any state that has it (R25, R30 to R32, R40, R113). -/
structure State.Inv (s : State) : Prop where
  /-- The buffer's canonical form. -/
  canonical : Memory.wf s.buf
  /-- Only indices 0 to BUF_SIZE - 1 hold a byte (R40, R51). -/
  bounded : ∀ c ∈ s.buf, c.1 < bufSize s
  /-- STATUS holds a legal value (R25). -/
  legal : s.status.Legal
  /-- RESULT and RESULT_LEN are 0 unless the last command completed without error (R30, R31). -/
  results : s.status.done = false → s.res.result = 0 ∧ s.res.resultLen = 0
  /-- ERRINFO_A and ERRINFO_B are 0 unless the last command ended in error (R32). -/
  errInfo : s.status.err = false → s.res.errInfoA = 0 ∧ s.res.errInfoB = 0
  /-- HAZ shows a hazard that was recorded (R105, R113). -/
  hazNoted : s.status.haz = true → ∃ a, FaultRecord.hazard a ∈ s.trail.faults

/-! ### The end of a run (R117) -/

/-- The last STATUS read the host made, if it made one. -/
def lastStatusRead (s : State) : Option Word :=
  (s.reads.find? fun r => r.space == .csr && r.index == csrOffset .status).map ReadBack.value

/-- A run has ended: the host performed its last operation, the last STATUS read it made returned BUSY = 0, and no fault is
recorded (R117, R36; log 16). -/
abbrev Final (s : State) : Prop :=
  s.program = [] ∧ (lastStatusRead s).map (·.getLsbD 0) = some false ∧ s.trail.faults = []

/-- The registers of the CSR window in the order of their offsets (R23). -/
def csrList : List Csr :=
  [.cmd, .status, .srcAddr, .srcLen, .dstAddr, .dstLen, .carAddr, .carLen, .value, .result, .resultLen, .errInfoA, .errInfoB,
    .rsvd34, .rsvd38, .rsvd3C]

/-- What is observed at the end of a run: the CSRs and the buffer RAM (R117). -/
structure Observation where
  csrs : List Word
  buf : Memory
  deriving DecidableEq, Repr

/-- The observation of a final state; none in any other (R36, R117). -/
def observe (s : State) : Option Observation :=
  if Final s then some ⟨csrList.map fun c => readCsr c s, s.buf⟩ else none

end Sys2Proof.Machine
end

