-- ==== Sys2Proof/Certificates/Slice0/Obligations.lean ====
section
/-! DEFINITION. The statements about the CORE, from the numbered rules of spec/. Nothing is proved here. -/

open Sys2Proof Sys2Proof.Machine

/-! ### Encoding (30_encoding.md) -/

/-- The opcode map of R58 word by word, and words of every reserved kind (R60). -/
def Obligations.OpcodeMapDecodes : Prop :=
  decode 0x00000001 = .ok .byteToBits ∧ decode 0x00000002 = .ok .bitsToByte ∧ decode 0x00000003 = .ok .u32ToBits ∧
    decode 0x00000004 = .ok .bitsToU32 ∧ decode 0x00000005 = .ok .extractLsb ∧ decode 0x00000006 = .ok .bitsToBytes ∧
    decode 0x00000007 = .ok .makeBits ∧ decode 0x00000008 = .ok .embed ∧ decode 0x00000009 = .ok .extract ∧
    decode 0x00000000 = .error .reservedOpcode ∧ decode 0x0000000A = .error .reservedOpcode ∧
    decode 0x0000000F = .error .reservedOpcode ∧ decode 0x00000011 = .error .reservedField ∧
    decode 0x80000008 = .error .reservedField

/-- A word decodes to a command exactly when it is that command's word: no bit is dropped, and no other word decodes to it
(R58, R59). -/
def Obligations.DecodeEncodeAgree : Prop := ∀ (w : Word) (i : Instr), decode w = .ok i ↔ w = encode i

/-- Exactly nine words are legal, 0x00000001 to 0x00000009 (R59). -/
def Obligations.LegalWordsAreTheNine : Prop :=
  ∀ w : Word, (∃ i, decode w = .ok i) ↔ 1 ≤ w.toNat ∧ w.toNat ≤ 9

/-! ### Steps (10_state.md, 40_units.md R75, 60_exceptions.md R101) -/

/-- When STATUS.BUSY = 1 and it is the engine's turn, the step is the engine's, with only the turn used up; and where the
latched word decodes to a command, that is the command's exec (R75; whose turn it is, log 6, is the model's). -/
def Obligations.StepRunsTheLatchedCommand : Prop :=
  ∀ s : State, s.status.busy = true → (s.turns = [] ∨ s.turns.head? = some .engine) →
    step s = engineStep { s with turns := s.turns.tail } ∧
      ∀ i, decode s.opLatch = .ok i → step s = exec i { s with turns := s.turns.tail }

/-- The engine step of a reserved word ends in ILLEGAL_OP, with the word in ERRINFO_A, and nothing else (R101). -/
def Obligations.IllegalWordEndsInIllegalOp : Prop :=
  ∀ s : State, ¬(1 ≤ s.opLatch.toNat ∧ s.opLatch.toNat ≤ 9) →
    ∃ t, engineStep s = .next t ∧ FailedWith 4 s.opLatch.toNat 0 s t

/-- On the host's turn the step performs the host's next access, and no other (R49, R53). Whose turn it is, is the model's
plain data (log 6). -/
def Obligations.StepPerformsTheHostAccess : Prop :=
  ∀ (s : State) (a : Access) (ops : List HostOp), s.program = .access a :: ops →
    ((s.turns = [] ∧ s.status.busy = false) ∨ s.turns.head? = some .host) →
    step s = .next (hostAccess a { s with program := ops, turns := s.turns.tail })

/-- A `poll` reads STATUS, and is done with when the word it read has bit 0 clear; it changes nothing else (R62; the
record of what was read is the model's, log 6). -/
def Obligations.PollRepeatsStatusReads : Prop :=
  ∀ (s : State) (ops : List HostOp), s.program = .poll :: ops →
    ((s.turns = [] ∧ s.status.busy = false) ∨ s.turns.head? = some .host) →
    step s = .next { s with
      program := if (statusWord s.status).getLsbD 0 then s.program else ops
      turns := s.turns.tail
      reads := ⟨.csr, 0x04, statusWord s.status⟩ :: s.reads }

/-! ### Reset and idle (70_reset_and_hazards.md R110, 10_state.md R37) -/

/-- In the state after reset every CSR reads 0, OPLATCH is 0 and every cell is unspecified (R37, R110). That no fault is
recorded there is the model's choice, no rule of the spec: R110 leaves the fault list unchanged (log 13). -/
def Obligations.ResetStateReadsZero : Prop :=
  (∀ c, readCsr c State.reset = 0) ∧ State.reset.opLatch = 0 ∧ (∀ a, memRead State.reset.buf a = none) ∧
    State.reset.trail.faults = []

/-- The reset event, in any state: every CSR field and OPLATCH are 0, every cell is unspecified, the fault list is left
unchanged, and the CORE is idle (R110). Which step is the reset event is said by `turns` (log 6); BUF_SIZE stays (log 13). -/
def Obligations.ResetEventClearsTheCore : Prop :=
  ∀ s : State, s.turns.head? = some .reset →
    ∃ t, step s = .next t ∧ (∀ c, readCsr c t = 0) ∧ t.opLatch = 0 ∧ (∀ a, memRead t.buf a = none) ∧
      t.trail.faults = s.trail.faults ∧ t.status.busy = false ∧ t.bufLast = s.bufLast

/-- An idle CORE with a host that has nothing left to do stays exactly as it is: it executes nothing until the host issues a
command (R109, R110; the step that changes nothing is the model's, log 18). -/
def Obligations.IdleCoreStaysAsItIs : Prop :=
  ∀ s : State, s.status.busy = false → s.turns = [] → s.program = [] → step s = .next s

/-! ### The CSR window (10_state.md R23 to R33) -/

/-- A CMD write while idle latches the word, sets BUSY, clears DONE, ERR, ERRCODE and the result registers, and leaves HAZ and
all else; whatever the word is, it is not refused. CMD reads 0. A CMD write while BUSY is a hazard and latches nothing
(R24, R25, R113). -/
def Obligations.CmdWriteIssuesTheCommand : Prop :=
  ∀ (s : State) (w : Word),
    (s.status.busy = false →
      hostAccess (.write .csr 0x00 32 w) s =
          { s with
            opLatch := w
            status := { busy := true, done := false, err := false, haz := s.status.haz, errCode := 0 }
            res := { result := 0, resultLen := 0, errInfoA := 0, errInfoB := 0 } } ∧
        hostAccess (.read .csr 0x00 32) s = { s with reads := ⟨.csr, 0x00, 0⟩ :: s.reads }) ∧
      (s.status.busy = true →
        (hostAccess (.write .csr 0x00 32 w) s).opLatch = s.opLatch ∧
          FaultRecord.hazard (.write .csr 0x00 32 w) ∈ (hostAccess (.write .csr 0x00 32 w) s).trail.faults)

/-- Each of the seven operand registers holds any word written to it while idle, with no legalisation; no other register, no
cell and no fault record changes (R26 to R29). -/
def Obligations.OperandCsrsHoldAnyWord : Prop :=
  ∀ (s : State) (c : Csr) (v : Word), s.status.busy = false →
    c ∈ [Csr.srcAddr, .srcLen, .dstAddr, .dstLen, .carAddr, .carLen, .value] →
    ∃ t, hostAccess (.write .csr (csrOffset c) 32 v) s = t ∧ readCsr c t = v ∧
      (∀ c', c' ≠ c → readCsr c' t = readCsr c' s) ∧ t = { s with opnd := t.opnd }

/-- A write to a read-only CSR is ignored and has no effect, and a read of CMD returns 0, both while BUSY = 0; while BUSY = 1
every CSR access but a read of STATUS is a hazard (R33). -/
def Obligations.ReadOnlyCsrWritesAreIgnored : Prop :=
  ∀ (s : State) (v : Word),
    (s.status.busy = false →
      (∀ c ∈ [Csr.status, .result, .resultLen, .errInfoA, .errInfoB],
          hostAccess (.write .csr (csrOffset c) 32 v) s = s) ∧
        hostAccess (.read .csr 0x00 32) s = { s with reads := ⟨.csr, 0x00, 0⟩ :: s.reads }) ∧
      (s.status.busy = true →
        (∀ c, FaultRecord.hazard (.write .csr (csrOffset c) 32 v) ∈
            (hostAccess (.write .csr (csrOffset c) 32 v) s).trail.faults) ∧
          ∀ c, c ≠ .status → FaultRecord.hazard (.read .csr (csrOffset c) 32) ∈
            (hostAccess (.read .csr (csrOffset c) 32) s).trail.faults)

/-- The CSR map while idle: at each offset a read hands back the register the map names, the reserved offsets 0, and changes
nothing else; a write to a reserved offset is ignored (R23, R32). -/
def Obligations.CsrMapReadsBack : Prop :=
  ∀ s : State, s.status.busy = false →
    (∀ p ∈ [((0x00 : Nat), (0 : Word)), (0x04, statusWord s.status), (0x08, s.opnd.srcAddr), (0x0C, s.opnd.srcLen),
        (0x10, s.opnd.dstAddr), (0x14, s.opnd.dstLen), (0x18, s.opnd.carAddr), (0x1C, s.opnd.carLen), (0x20, s.opnd.value),
        (0x24, s.res.result), (0x28, s.res.resultLen), (0x2C, s.res.errInfoA), (0x30, s.res.errInfoB), (0x34, 0), (0x38, 0),
        (0x3C, 0)],
      hostAccess (.read .csr p.1 32) s = { s with reads := ⟨.csr, p.1, p.2⟩ :: s.reads }) ∧
      ∀ i ∈ [0x34, 0x38, 0x3C], ∀ v, hostAccess (.write .csr i 32 v) s = s

/-- The fields of STATUS stand at the bits of R25, and the reserved bits read 0. -/
def Obligations.StatusWordFields : Prop :=
  ∀ st : Status, (statusWord st).getLsbD 0 = st.busy ∧ (statusWord st).getLsbD 1 = st.done ∧
    (statusWord st).getLsbD 2 = st.err ∧ (statusWord st).getLsbD 3 = st.haz ∧
    (statusWord st).extractLsb' 4 4 = st.errCode ∧ (statusWord st).extractLsb' 8 24 = 0

/-! ### Buffer accesses, refused accesses and hazards (20_memory.md R42 to R46, R113) -/

/-- A host buffer read while idle hands back the cell, a host buffer write while idle sets it, and neither has any other
effect; while BUSY either is a hazard (R42). The form of an unspecified cell is UnspecifiedHostReadIsFree; that a byte stands
in bits [7:0] of the data is the model's (log 9). -/
def Obligations.HostBufferAccesses : Prop :=
  ∀ (s : State) (i : Nat), i < bufSize s →
    (s.status.busy = false →
      (∀ b, memRead s.buf i = some b →
          hostAccess (.read .buf i 8) s = { s with reads := ⟨.buf, i, b.setWidth 32⟩ :: s.reads }) ∧
        ∀ v : Byte, ∃ m, hostAccess (.write .buf i 8 (v.setWidth 32)) s = { s with buf := m } ∧ memRead m i = some v ∧
          ∀ j, j ≠ i → memRead m j = memRead s.buf j) ∧
      (s.status.busy = true →
        FaultRecord.hazard (.read .buf i 8) ∈ (hostAccess (.read .buf i 8) s).trail.faults ∧
          ∀ w, FaultRecord.hazard (.write .buf i 8 w) ∈ (hostAccess (.write .buf i 8 w) s).trail.faults)

/-- A host read of an unspecified cell while idle records UNINIT_READ and hands back some byte; nothing else changes but the
count of free values (R44). The byte is a free value (log 3). -/
def Obligations.UnspecifiedHostReadIsFree : Prop :=
  ∀ (s : State) (i : Nat), i < bufSize s → s.status.busy = false → memRead s.buf i = none →
    ∃ v : Byte, hostAccess (.read .buf i 8) s =
      { s with
        trail := { draws := s.trail.draws + 1, faults := s.trail.faults ++ [.uninitRead i] }
        reads := ⟨.buf, i, v.setWidth 32⟩ :: s.reads }

/-- An access that is not 32 bits wide at a multiple of 4 in [0x00, 0x3C] of the CSR window, or not 8 bits wide below
BUF_SIZE, records REFUSED_ACCESS and changes no other state (R45, R46). That it is so while BUSY too is the model's
reading (log 8). -/
def Obligations.IllFormedAccessesAreRefused : Prop :=
  ∀ (s : State) (sp : Space) (i width : Nat),
    (match sp with
      | .csr => ¬(width = 32 ∧ i % 4 = 0 ∧ i ≤ 0x3C)
      | .buf => ¬(width = 8 ∧ i < bufSize s)) →
    hostAccess (.read sp i width) s =
        { s with trail := { s.trail with faults := s.trail.faults ++ [.refusedAccess sp i width] } } ∧
      ∀ data, hostAccess (.write sp i width data) s =
        { s with trail := { s.trail with faults := s.trail.faults ++ [.refusedAccess sp i width] } }

/-- While BUSY, a well-formed access other than a STATUS read sets HAZ and records HAZARD; a write does nothing else, and a
read hands back some word (R113). That the model sets HAZ, and hands back a free value, is its reading of R113
(log 4, 5); so is that a hazard read of an unspecified cell records no UNINIT_READ (log 19). -/
def Obligations.HazardSetsHazAndNothingElse : Prop :=
  ∀ (s : State) (sp : Space) (i width : Nat), s.status.busy = true →
    (match sp with
      | .csr => width = 32 ∧ i % 4 = 0 ∧ i ≤ 0x3C
      | .buf => width = 8 ∧ i < bufSize s) →
    (∀ data, hostAccess (.write sp i width data) s =
        { s with
          status := { s.status with haz := true }
          trail := { s.trail with faults := s.trail.faults ++ [.hazard (.write sp i width data)] } }) ∧
      (¬(sp = .csr ∧ i = 0x04) → ∃ v, hostAccess (.read sp i width) s =
        { s with
          status := { s.status with haz := true }
          trail := { draws := s.trail.draws + 1, faults := s.trail.faults ++ [.hazard (.read sp i width)] }
          reads := ⟨sp, i, v⟩ :: s.reads })

/-- A CSR read of STATUS is defined in every state, BUSY or not, and changes nothing (R113, R106). -/
def Obligations.StatusReadIsAlwaysDefined : Prop :=
  ∀ s : State, hostAccess (.read .csr 0x04 32) s = { s with reads := ⟨.csr, 0x04, statusWord s.status⟩ :: s.reads }

/-! ### Whole-machine rules -/

/-- HAZ, once set, stays set until reset (R25). -/
def Obligations.HazStaysUntilReset : Prop :=
  ∀ s t : State, step s = .next t → s.status.haz = true → t.status.haz = true ∨ s.turns.head? = some .reset

/-- A recorded fault is never cleared, not even by reset, and no state after it is final, however long the run (R36; when a
run is over is read as in log 16). -/
def Obligations.RecordedFaultIsForGood : Prop :=
  ∀ (n : Nat) (s t : State), core.run n s = .next t → s.trail.faults <+: t.trail.faults ∧
    (s.trail.faults ≠ [] → ¬Final t ∧ observe t = none)

/-- Only a host write of CMD while idle starts a command, and the word latched is the word written (R22, R24, R110). -/
def Obligations.OnlyCmdWriteStartsACommand : Prop :=
  ∀ s t : State, step s = .next t → s.status.busy = false → t.status.busy = true →
    ∃ w ops, s.program = .access (.write .csr 0x00 32 w) :: ops ∧ t.opLatch = w

/-- While idle, the outcome of the last command stands: DONE, ERR, ERRCODE and the result registers stay as they are until an
accepted CMD write or a reset event (R104, R30 to R32). -/
def Obligations.OutcomeStandsUntilCmdOrReset : Prop :=
  ∀ s t : State, step s = .next t → s.status.busy = false → t.status.busy = false → s.turns.head? ≠ some .reset →
    t.res = s.res ∧ t.status.done = s.status.done ∧ t.status.err = s.status.err ∧ t.status.errCode = s.status.errCode

/-- A busy CORE is idle again after finitely many steps, whatever the host does meanwhile: at most one more than the turns
given out beforehand (R115; the schedule is the model's, log 6). -/
def Obligations.BusyComesToAnEnd : Prop :=
  ∀ s : State, s.status.busy = true → ∃ n t, n ≤ s.turns.length + 1 ∧ core.run n s = .next t ∧ t.status.busy = false

/-- The invariant holds after reset. -/
def Obligations.InvariantAtReset : Prop := State.reset.Inv

/-- Every step keeps the invariant: the buffer's canonical form and bound, the legal values of STATUS, and the registers that
read 0 (R25, R30 to R32, R40, R100), and HAZ only with a recorded HAZARD (log 4). -/
def Obligations.StepKeepsInvariant : Prop := ∀ s t : State, s.Inv → step s = .next t → t.Inv

/-! ### Frames of the nine commands -/

/-- Every command ends: it answers a next state with BUSY = 0 and exactly one of DONE and ERR, with ERRCODE one of 1 to 9
exactly when ERR (R75, R100). -/
def Obligations.EveryCommandEnds : Prop :=
  ∀ (i : Instr) (s : State), ∃ t, exec i s = .next t ∧ t.status.busy = false ∧ (t.status.done = !t.status.err) ∧
    (t.status.err = true → 1 ≤ t.status.errCode.toNat ∧ t.status.errCode.toNat ≤ 9) ∧
    (t.status.err = false → t.status.errCode = 0)

/-- The registers of all nine commands, on every form: OPLATCH, the operand registers, HAZ, BUF_SIZE and the host's side stay;
the fault list only grows; a command that is done leaves ERRINFO_A and ERRINFO_B, and one that is in error leaves RESULT
and RESULT_LEN (R26 to R29, R38, R75 to R77). That these stay where R76 and R77 say they `stay 0` is the model's reading
in states no run reaches (log 7). -/
def Obligations.CommandsKeepOtherRegisters : Prop :=
  ∀ (i : Instr) (s t : State), exec i s = .next t →
    SameRest s t ∧ t.status.haz = s.status.haz ∧ s.trail.faults <+: t.trail.faults ∧ s.trail.draws ≤ t.trail.draws ∧
      (t.status.err = false → t.res.errInfoA = s.res.errInfoA ∧ t.res.errInfoB = s.res.errInfoB) ∧
      (t.status.err = true → t.res.result = s.res.result ∧ t.res.resultLen = s.res.resultLen)

/-- BYTETOBITS, U32TOBITS, EXTRACTLSB, BITSTOBYTES, MAKEBITS and EXTRACT write only the first RESULT_LEN bytes of DST: every
other cell reads as before, on every form (R27). -/
def Obligations.DstCommandsWriteOnlyDst : Prop :=
  ∀ (i : Instr) (s t : State), i ∈ [Instr.byteToBits, .u32ToBits, .extractLsb, .bitsToBytes, .makeBits, .extract] →
    exec i s = .next t →
    if t.status.err then t.buf = s.buf
    else t.res.resultLen.toNat ≤ s.opnd.dstLen.toNat ∧
      SameOutside s.buf t.buf s.opnd.dstAddr.toNat t.res.resultLen.toNat

/-- BITSTOBYTE and BITSTOU32 store nothing: every cell reads as before, on every form (R83, R85). -/
def Obligations.ResultCommandsStoreNothing : Prop :=
  ∀ (i : Instr) (s t : State), i ∈ [Instr.bitsToByte, .bitsToU32] → exec i s = .next t →
    ∀ a, memRead t.buf a = memRead s.buf a

/-- EMBED writes only the first 32 + 8 * SRC_LEN bytes of CAR, on every form, so neither the carrier bytes from there on nor
the payload (R91). -/
def Obligations.EmbedWritesOnlyTheFramesCells : Prop :=
  ∀ s t : State, exec .embed s = .next t →
    SameOutside s.buf t.buf s.opnd.carAddr.toNat (32 + 8 * s.opnd.srcLen.toNat) ∧
      ∀ a, InRegion (regionOf s.opnd .src) a → memRead t.buf a = memRead s.buf a

/-- An error is precise: the buffer is in its exact state before the command, and every register but STATUS, ERRINFO_A and
ERRINFO_B is as it was after issue (R77, R103). -/
def Obligations.ErrorsArePrecise : Prop :=
  ∀ (i : Instr) (s t : State), exec i s = .next t → t.status.err = true →
    t.buf = s.buf ∧ t.opnd = s.opnd ∧ t.opLatch = s.opLatch ∧ t.res.result = s.res.result ∧
      t.res.resultLen = s.res.resultLen ∧ t.status.done = false ∧ t.status.busy = false

/-- What a command cannot learn: its outcome, its writes and its free values depend only on the operands its row of R57 uses,
on BUF_SIZE, and on the cells of the regions it reads; so a host that issues the same command again on the same inputs gets
the same outcome (R43, R57, R104). Free values count as an input, by their number (log 3). -/
def Obligations.OutcomeDependsOnlyOnInputs : Prop :=
  ∀ (i : Instr) (s s' t t' : State), usedOperands i s.opnd = usedOperands i s'.opnd → s.bufLast = s'.bufLast →
    s.trail.draws = s'.trail.draws → (∀ a, MayRead i s.opnd a → memRead s.buf a = memRead s'.buf a) →
    exec i (issueCommand (encode i) s) = .next t → exec i (issueCommand (encode i) s') = .next t' →
    t.res = t'.res ∧ t.status.done = t'.status.done ∧ t.status.err = t'.status.err ∧
      t.status.errCode = t'.status.errCode ∧ t.trail.draws = t'.trail.draws ∧
      ∀ a, memRead s.buf a = memRead s'.buf a → memRead t.buf a = memRead t'.buf a

/-! ### The BitCodec commands (41_bitcodec.md) -/

/-- BYTETOBITS, whole (R82): the 8 bits of VALUE[7:0] go to DST, or RANGE, or DST_SMALL. -/
def Obligations.ByteToBitsWritesTheBits : Prop :=
  decode 0x00000001 = .ok .byteToBits ∧ ∀ s : State,
    (dstOk s → 8 ≤ s.opnd.dstLen.toNat →
      ∃ t, exec .byteToBits s = .next t ∧
        Succeeded 0 8 s.opnd.dstAddr.toNat ((packByte (s.opnd.value.setWidth 8)).map bitByte) s t) ∧
      (¬dstOk s → ∃ t, exec .byteToBits s = .next t ∧ FailedWith 5 2 0 s t) ∧
      (dstOk s → s.opnd.dstLen.toNat < 8 →
        ∃ t, exec .byteToBits s = .next t ∧ FailedWith 8 8 s.opnd.dstLen.toNat s t)

/-- BITSTOBYTE, whole (R83): RESULT is the byte of the SRC bits, or RANGE, or LENGTH, or BADBIT. -/
def Obligations.BitsToByteGivesTheByte : Prop :=
  decode 0x00000002 = .ok .bitsToByte ∧ ∀ s : State,
    (∀ bits : List Bit, HoldsBits s.buf s.opnd.srcAddr.toNat bits → bits.length = s.opnd.srcLen.toNat → srcOk s →
      s.opnd.srcLen.toNat ≤ 8 →
      ∃ t, exec .bitsToByte s = .next t ∧ Succeeded (unpackByte bits).toNat 0 0 [] s t) ∧
      (¬srcOk s → ∃ t, exec .bitsToByte s = .next t ∧ FailedWith 5 1 0 s t) ∧
      (srcOk s → 8 < s.opnd.srcLen.toNat →
        ∃ t, exec .bitsToByte s = .next t ∧ FailedWith 7 8 s.opnd.srcLen.toNat s t) ∧
      ∀ (pre : List Bit) (v : Byte), HoldsBits s.buf s.opnd.srcAddr.toNat pre →
        memRead s.buf (s.opnd.srcAddr.toNat + pre.length) = some v → 1 < v.toNat → pre.length < s.opnd.srcLen.toNat →
        srcOk s → s.opnd.srcLen.toNat ≤ 8 →
        ∃ t, exec .bitsToByte s = .next t ∧ FailedWith 9 pre.length v.toNat s t

/-- U32TOBITS, whole (R84): the 32 bits of VALUE go to DST, or RANGE, or DST_SMALL. -/
def Obligations.U32ToBitsWritesTheBits : Prop :=
  decode 0x00000003 = .ok .u32ToBits ∧ ∀ s : State,
    (dstOk s → 32 ≤ s.opnd.dstLen.toNat →
      ∃ t, exec .u32ToBits s = .next t ∧
        Succeeded 0 32 s.opnd.dstAddr.toNat ((packWord s.opnd.value).map bitByte) s t) ∧
      (¬dstOk s → ∃ t, exec .u32ToBits s = .next t ∧ FailedWith 5 2 0 s t) ∧
      (dstOk s → s.opnd.dstLen.toNat < 32 →
        ∃ t, exec .u32ToBits s = .next t ∧ FailedWith 8 32 s.opnd.dstLen.toNat s t)

/-- BITSTOU32, whole (R85): RESULT is the value of the 32 SRC bits, or RANGE, or LENGTH, or BADBIT. -/
def Obligations.BitsToU32GivesTheValue : Prop :=
  decode 0x00000004 = .ok .bitsToU32 ∧ ∀ s : State,
    (∀ bits : List Bit, HoldsBits s.buf s.opnd.srcAddr.toNat bits → bits.length = 32 → srcOk s →
      s.opnd.srcLen.toNat = 32 →
      ∃ t, exec .bitsToU32 s = .next t ∧ Succeeded (accumulate bits) 0 0 [] s t) ∧
      (¬srcOk s → ∃ t, exec .bitsToU32 s = .next t ∧ FailedWith 5 1 0 s t) ∧
      (srcOk s → s.opnd.srcLen.toNat ≠ 32 →
        ∃ t, exec .bitsToU32 s = .next t ∧ FailedWith 7 32 s.opnd.srcLen.toNat s t) ∧
      ∀ (pre : List Bit) (v : Byte), HoldsBits s.buf s.opnd.srcAddr.toNat pre →
        memRead s.buf (s.opnd.srcAddr.toNat + pre.length) = some v → 1 < v.toNat → pre.length < 32 →
        srcOk s → s.opnd.srcLen.toNat = 32 →
        ∃ t, exec .bitsToU32 s = .next t ∧ FailedWith 9 pre.length v.toNat s t

/-- EXTRACTLSB, whole (R86): the LSBs of the SRC bytes go to DST, or RANGE, or OVERLAP, or DST_SMALL. -/
def Obligations.ExtractLsbWritesTheLsbs : Prop :=
  decode 0x00000005 = .ok .extractLsb ∧ ∀ s : State,
    (∀ cs : List Byte, HoldsBytes s.buf s.opnd.srcAddr.toNat cs → cs.length = s.opnd.srcLen.toNat → srcOk s → dstOk s →
      ShareNone (regionOf s.opnd .src) (regionOf s.opnd .dst) → cs.length ≤ s.opnd.dstLen.toNat →
      ∃ t, exec .extractLsb s = .next t ∧
        Succeeded 0 cs.length s.opnd.dstAddr.toNat ((lsbs cs).map bitByte) s t) ∧
      (¬srcOk s → ∃ t, exec .extractLsb s = .next t ∧ FailedWith 5 1 0 s t) ∧
      (srcOk s → ¬dstOk s → ∃ t, exec .extractLsb s = .next t ∧ FailedWith 5 2 0 s t) ∧
      (srcOk s → dstOk s → ¬ShareNone (regionOf s.opnd .src) (regionOf s.opnd .dst) →
        ∃ t, exec .extractLsb s = .next t ∧ FailedWith 6 1 2 s t) ∧
      (srcOk s → dstOk s → ShareNone (regionOf s.opnd .src) (regionOf s.opnd .dst) →
        s.opnd.dstLen.toNat < s.opnd.srcLen.toNat →
        ∃ t, exec .extractLsb s = .next t ∧ FailedWith 8 s.opnd.srcLen.toNat s.opnd.dstLen.toNat s t)

/-- BITSTOBYTES, whole (R87): the bytes of the SRC bits go to DST, or RANGE, or OVERLAP, or DST_SMALL, or BADBIT. -/
def Obligations.BitsToBytesWritesTheBytes : Prop :=
  decode 0x00000006 = .ok .bitsToBytes ∧ ∀ s : State,
    (∀ bits : List Bit, HoldsBits s.buf s.opnd.srcAddr.toNat bits → bits.length = s.opnd.srcLen.toNat → srcOk s →
      dstOk s → ShareNone (regionOf s.opnd .src) (regionOf s.opnd .dst) →
      ceilDiv bits.length 8 ≤ s.opnd.dstLen.toNat →
      ∃ t, exec .bitsToBytes s = .next t ∧
        Succeeded 0 (ceilDiv bits.length 8) s.opnd.dstAddr.toNat (unpackBytes bits) s t) ∧
      (¬srcOk s → ∃ t, exec .bitsToBytes s = .next t ∧ FailedWith 5 1 0 s t) ∧
      (srcOk s → ¬dstOk s → ∃ t, exec .bitsToBytes s = .next t ∧ FailedWith 5 2 0 s t) ∧
      (srcOk s → dstOk s → ¬ShareNone (regionOf s.opnd .src) (regionOf s.opnd .dst) →
        ∃ t, exec .bitsToBytes s = .next t ∧ FailedWith 6 1 2 s t) ∧
      (srcOk s → dstOk s → ShareNone (regionOf s.opnd .src) (regionOf s.opnd .dst) →
        s.opnd.dstLen.toNat < ceilDiv s.opnd.srcLen.toNat 8 →
        ∃ t, exec .bitsToBytes s = .next t ∧
          FailedWith 8 (ceilDiv s.opnd.srcLen.toNat 8) s.opnd.dstLen.toNat s t) ∧
      ∀ (pre : List Bit) (v : Byte), HoldsBits s.buf s.opnd.srcAddr.toNat pre →
        memRead s.buf (s.opnd.srcAddr.toNat + pre.length) = some v → 1 < v.toNat → pre.length < s.opnd.srcLen.toNat →
        srcOk s → dstOk s → ShareNone (regionOf s.opnd .src) (regionOf s.opnd .dst) →
        ceilDiv s.opnd.srcLen.toNat 8 ≤ s.opnd.dstLen.toNat →
        ∃ t, exec .bitsToBytes s = .next t ∧ FailedWith 9 pre.length v.toNat s t

/-- MAKEBITS, whole (R88): the bits of the SRC bytes go to DST, or RANGE, or OVERLAP, or DST_SMALL. -/
def Obligations.MakeBitsWritesTheBits : Prop :=
  decode 0x00000007 = .ok .makeBits ∧ ∀ s : State,
    (∀ bs : List Byte, HoldsBytes s.buf s.opnd.srcAddr.toNat bs → bs.length = s.opnd.srcLen.toNat → srcOk s → dstOk s →
      ShareNone (regionOf s.opnd .src) (regionOf s.opnd .dst) → 8 * bs.length ≤ s.opnd.dstLen.toNat →
      ∃ t, exec .makeBits s = .next t ∧
        Succeeded 0 (8 * bs.length) s.opnd.dstAddr.toNat ((packBytes bs).map bitByte) s t) ∧
      (¬srcOk s → ∃ t, exec .makeBits s = .next t ∧ FailedWith 5 1 0 s t) ∧
      (srcOk s → ¬dstOk s → ∃ t, exec .makeBits s = .next t ∧ FailedWith 5 2 0 s t) ∧
      (srcOk s → dstOk s → ¬ShareNone (regionOf s.opnd .src) (regionOf s.opnd .dst) →
        ∃ t, exec .makeBits s = .next t ∧ FailedWith 6 1 2 s t) ∧
      (srcOk s → dstOk s → ShareNone (regionOf s.opnd .src) (regionOf s.opnd .dst) →
        s.opnd.dstLen.toNat < 8 * s.opnd.srcLen.toNat →
        ∃ t, exec .makeBits s = .next t ∧ FailedWith 8 (8 * s.opnd.srcLen.toNat) s.opnd.dstLen.toNat s t)

/-! ### EMBED and EXTRACT (42_embedder.md, 43_extractor.md) -/

/-- EMBED, whole (R89): the first 32 + 8N carrier bytes get the frame's bits in their LSBs, RESULT is the header value 8N; or
RANGE, or OVERLAP, or INSUFFICIENT_CAPACITY. `cs` is the part of the carrier the frame covers. -/
def Obligations.EmbedWritesTheFrame : Prop :=
  decode 0x00000008 = .ok .embed ∧ ∀ s : State,
    (∀ p cs : List Byte, HoldsBytes s.buf s.opnd.srcAddr.toNat p → p.length = s.opnd.srcLen.toNat →
      HoldsBytes s.buf s.opnd.carAddr.toNat cs → cs.length = 32 + 8 * p.length → srcOk s → carOk s →
      ShareNone (regionOf s.opnd .src) (regionOf s.opnd .car) → 32 + 8 * p.length ≤ s.opnd.carLen.toNat →
      ∃ t, exec .embed s = .next t ∧
        Succeeded (8 * p.length) (32 + 8 * p.length) s.opnd.carAddr.toNat (List.zipWith embedBit cs (frame p)) s t) ∧
      (¬srcOk s → ∃ t, exec .embed s = .next t ∧ FailedWith 5 1 0 s t) ∧
      (srcOk s → ¬carOk s → ∃ t, exec .embed s = .next t ∧ FailedWith 5 3 0 s t) ∧
      (srcOk s → carOk s → ¬ShareNone (regionOf s.opnd .src) (regionOf s.opnd .car) →
        ∃ t, exec .embed s = .next t ∧ FailedWith 6 1 3 s t) ∧
      (srcOk s → carOk s → ShareNone (regionOf s.opnd .src) (regionOf s.opnd .car) →
        s.opnd.carLen.toNat < 32 + 8 * s.opnd.srcLen.toNat →
        ∃ t, exec .embed s = .next t ∧
          FailedWith 1 (32 + 8 * s.opnd.srcLen.toNat) s.opnd.carLen.toNat s t)

/-- The wire format after a successful EMBED (R93): header bit 31 - i in the LSB of carrier byte i, payload bit 7 - k of byte j
in the LSB of carrier byte 32 + 8j + k, and every one of these bytes changed by at most 1. -/
def Obligations.EmbedLeavesTheWireFormat : Prop :=
  ∀ (s t : State) (p cs : List Byte), HoldsBytes s.buf s.opnd.srcAddr.toNat p → p.length = s.opnd.srcLen.toNat →
    HoldsBytes s.buf s.opnd.carAddr.toNat cs → cs.length = 32 + 8 * p.length → exec .embed s = .next t →
    t.status.done = true →
    (∀ i, i < 32 → ∃ c, memRead t.buf (s.opnd.carAddr.toNat + i) = some c ∧
        c.toNat % 2 = (8 * p.length) / 2 ^ (31 - i) % 2) ∧
      (∀ j (h : j < p.length) k, k < 8 → ∃ c, memRead t.buf (s.opnd.carAddr.toNat + (32 + 8 * j + k)) = some c ∧
        c.toNat % 2 = p[j].toNat / 2 ^ (7 - k) % 2) ∧
      ∀ i (h : i < cs.length), ∃ c, memRead t.buf (s.opnd.carAddr.toNat + i) = some c ∧
        c.toNat ≤ cs[i].toNat + 1 ∧ cs[i].toNat ≤ c.toNat + 1

/-- EMBED of an empty payload (R92): the first 32 carrier bytes are left if even and decremented if odd, and no other cell
changes; with fewer than 32 carrier bytes, INSUFFICIENT_CAPACITY(32, CAR_LEN). -/
def Obligations.EmbedOfEmptyPayload : Prop :=
  ∀ s : State, s.opnd.srcLen = 0 → srcOk s → carOk s →
    (∀ cs : List Byte, HoldsBytes s.buf s.opnd.carAddr.toNat cs → cs.length = 32 → 32 ≤ s.opnd.carLen.toNat →
      ∃ t, exec .embed s = .next t ∧ CompletedWith 0 32 s t ∧ SameOutside s.buf t.buf s.opnd.carAddr.toNat 32 ∧
        ∀ i (h : i < cs.length), ∃ c, memRead t.buf (s.opnd.carAddr.toNat + i) = some c ∧
          c.toNat = if cs[i].toNat % 2 = 0 then cs[i].toNat else cs[i].toNat - 1) ∧
      (s.opnd.carLen.toNat < 32 → ∃ t, exec .embed s = .next t ∧ FailedWith 1 32 s.opnd.carLen.toNat s t)

/-- EXTRACT, whole (R94): with `n` the header value, the payload's ceil(n/8) bytes go to DST and RESULT is `n`; or RANGE, or
OVERLAP, or TRUNCATED_HEADER, or TRUNCATED_PAYLOAD by the bound of conflict C1, or DST_SMALL. `hs` is the 32 header
bytes of the carrier and `cs` the payload's. -/
def Obligations.ExtractRecoversThePayload : Prop :=
  decode 0x00000009 = .ok .extract ∧ ∀ s : State,
    (∀ hs cs : List Byte, HoldsBytes s.buf s.opnd.carAddr.toNat hs → hs.length = 32 →
      HoldsBytes s.buf (s.opnd.carAddr.toNat + 32) cs → cs.length = accumulate (lsbs hs) → dstOk s → carOk s →
      ShareNone (regionOf s.opnd .car) (regionOf s.opnd .dst) → 32 ≤ s.opnd.carLen.toNat →
      cs.length ≤ s.opnd.carLen.toNat - 32 → ceilDiv cs.length 8 ≤ s.opnd.dstLen.toNat →
      ∃ t, exec .extract s = .next t ∧
        Succeeded cs.length (ceilDiv cs.length 8) s.opnd.dstAddr.toNat (unpackBytes (lsbs cs)) s t) ∧
      (¬dstOk s → ∃ t, exec .extract s = .next t ∧ FailedWith 5 2 0 s t) ∧
      (dstOk s → ¬carOk s → ∃ t, exec .extract s = .next t ∧ FailedWith 5 3 0 s t) ∧
      (dstOk s → carOk s → ¬ShareNone (regionOf s.opnd .car) (regionOf s.opnd .dst) →
        ∃ t, exec .extract s = .next t ∧ FailedWith 6 3 2 s t) ∧
      (dstOk s → carOk s → ShareNone (regionOf s.opnd .car) (regionOf s.opnd .dst) → s.opnd.carLen.toNat < 32 →
        ∃ t, exec .extract s = .next t ∧ FailedWith 2 32 s.opnd.carLen.toNat s t) ∧
      ∀ hs : List Byte, HoldsBytes s.buf s.opnd.carAddr.toNat hs → hs.length = 32 → dstOk s → carOk s →
        ShareNone (regionOf s.opnd .car) (regionOf s.opnd .dst) → 32 ≤ s.opnd.carLen.toNat →
        (s.opnd.carLen.toNat - 32 < accumulate (lsbs hs) →
          ∃ t, exec .extract s = .next t ∧
            FailedWith 3 (accumulate (lsbs hs)) (s.opnd.carLen.toNat - 32) s t) ∧
          (accumulate (lsbs hs) ≤ s.opnd.carLen.toNat - 32 →
            s.opnd.dstLen.toNat < ceilDiv (accumulate (lsbs hs)) 8 →
            ∃ t, exec .extract s = .next t ∧
              FailedWith 8 (ceilDiv (accumulate (lsbs hs)) 8) s.opnd.dstLen.toNat s t)

/-- The round trip (R99): a successful EMBED, then an EXTRACT in a state with the same buffer and the same carrier, whatever
the host set its other registers to, recovers the payload, whatever the carrier's bytes were. -/
def Obligations.EmbedThenExtractGivesThePayload : Prop :=
  ∀ (s t u : State) (p cs : List Byte), HoldsBytes s.buf s.opnd.srcAddr.toNat p → p.length = s.opnd.srcLen.toNat →
    HoldsBytes s.buf s.opnd.carAddr.toNat cs → cs.length = s.opnd.carLen.toNat → exec .embed s = .next t →
    t.status.done = true → u.buf = t.buf → u.bufLast = t.bufLast → u.opnd.carAddr = s.opnd.carAddr →
    u.opnd.carLen = s.opnd.carLen → dstOk u → ShareNone (regionOf u.opnd .car) (regionOf u.opnd .dst) →
    p.length ≤ u.opnd.dstLen.toNat →
    ∃ v, exec .extract u = .next v ∧ Succeeded (8 * p.length) p.length u.opnd.dstAddr.toNat p u v

/-! ### Unspecified cells in a command (20_memory.md R44) -/

/-- EXTRACTLSB, MAKEBITS and EMBED run on unspecified cells too: they complete with some bytes that agree with every specified
cell, and the fault list gets one UNINIT_READ per unspecified cell read, in the order of the reads (R44; log 3, 11). -/
def Obligations.UnspecifiedBytesAreFree : Prop :=
  ∀ s : State, srcOk s →
    (dstOk s → ShareNone (regionOf s.opnd .src) (regionOf s.opnd .dst) →
      s.opnd.srcLen.toNat ≤ s.opnd.dstLen.toNat →
      ∃ t, ∃ cs : List Byte, exec .extractLsb s = .next t ∧ CompletedWith 0 s.opnd.srcLen.toNat s t ∧
        cs.length = s.opnd.srcLen.toNat ∧
        (∀ j (h : j < cs.length) v, memRead s.buf (s.opnd.srcAddr.toNat + j) = some v → cs[j] = v) ∧
        HoldsBits t.buf s.opnd.dstAddr.toNat (lsbs cs) ∧
        SameOutside s.buf t.buf s.opnd.dstAddr.toNat s.opnd.srcLen.toNat ∧
        t.trail.faults = s.trail.faults ++ uninitRecords s.buf s.opnd.srcAddr.toNat s.opnd.srcLen.toNat) ∧
      (dstOk s → ShareNone (regionOf s.opnd .src) (regionOf s.opnd .dst) →
        8 * s.opnd.srcLen.toNat ≤ s.opnd.dstLen.toNat →
        ∃ t, ∃ bs : List Byte, exec .makeBits s = .next t ∧ CompletedWith 0 (8 * s.opnd.srcLen.toNat) s t ∧
          bs.length = s.opnd.srcLen.toNat ∧
          (∀ j (h : j < bs.length) v, memRead s.buf (s.opnd.srcAddr.toNat + j) = some v → bs[j] = v) ∧
          HoldsBits t.buf s.opnd.dstAddr.toNat (packBytes bs) ∧
          SameOutside s.buf t.buf s.opnd.dstAddr.toNat (8 * s.opnd.srcLen.toNat) ∧
          t.trail.faults = s.trail.faults ++ uninitRecords s.buf s.opnd.srcAddr.toNat s.opnd.srcLen.toNat) ∧
      (carOk s → ShareNone (regionOf s.opnd .src) (regionOf s.opnd .car) →
        32 + 8 * s.opnd.srcLen.toNat ≤ s.opnd.carLen.toNat →
        ∃ t, ∃ p cs : List Byte, exec .embed s = .next t ∧
          CompletedWith (8 * s.opnd.srcLen.toNat) (32 + 8 * s.opnd.srcLen.toNat) s t ∧
          p.length = s.opnd.srcLen.toNat ∧ cs.length = 32 + 8 * s.opnd.srcLen.toNat ∧
          (∀ j (h : j < p.length) v, memRead s.buf (s.opnd.srcAddr.toNat + j) = some v → p[j] = v) ∧
          (∀ j (h : j < cs.length) v, memRead s.buf (s.opnd.carAddr.toNat + j) = some v → cs[j] = v) ∧
          HoldsBytes t.buf s.opnd.carAddr.toNat (List.zipWith embedBit cs (frame p)) ∧
          SameOutside s.buf t.buf s.opnd.carAddr.toNat (32 + 8 * s.opnd.srcLen.toNat) ∧
          t.trail.faults = s.trail.faults ++ uninitRecords s.buf s.opnd.srcAddr.toNat s.opnd.srcLen.toNat ++
            uninitRecords s.buf s.opnd.carAddr.toNat (32 + 8 * s.opnd.srcLen.toNat))

/-- BITSTOBYTE, BITSTOU32, BITSTOBYTES and EXTRACT run on too when they come to an unspecified cell: they answer a next state
that is done or in one of the errors that depend on buffer data, with the UNINIT_READ recorded (R44, R102; log 3). For
EXTRACT the cell is one of the header's, or of the payload's behind a specified header (R94, R98). -/
def Obligations.UnspecifiedBitsAreRecorded : Prop :=
  ∀ s : State,
    (∀ (i : Instr) (pre : List Bit),
      (i = .bitsToByte ∧ s.opnd.srcLen.toNat ≤ 8) ∨ (i = .bitsToU32 ∧ s.opnd.srcLen.toNat = 32) ∨
        (i = .bitsToBytes ∧ dstOk s ∧ ShareNone (regionOf s.opnd .src) (regionOf s.opnd .dst) ∧
          ceilDiv s.opnd.srcLen.toNat 8 ≤ s.opnd.dstLen.toNat) →
      srcOk s → HoldsBits s.buf s.opnd.srcAddr.toNat pre → pre.length < s.opnd.srcLen.toNat →
      memRead s.buf (s.opnd.srcAddr.toNat + pre.length) = none →
      ∃ t, exec i s = .next t ∧ FaultRecord.uninitRead (s.opnd.srcAddr.toNat + pre.length) ∈ t.trail.faults ∧
        (t.status.done = true ∨ t.status.errCode = 9)) ∧
      (∀ j, j < 32 → dstOk s → carOk s → ShareNone (regionOf s.opnd .car) (regionOf s.opnd .dst) →
        32 ≤ s.opnd.carLen.toNat → memRead s.buf (s.opnd.carAddr.toNat + j) = none →
        ∃ t, exec .extract s = .next t ∧ FaultRecord.uninitRead (s.opnd.carAddr.toNat + j) ∈ t.trail.faults ∧
          (t.status.done = true ∨ t.status.errCode = 3 ∨ t.status.errCode = 8)) ∧
      ∀ (hs : List Byte) (j : Nat), HoldsBytes s.buf s.opnd.carAddr.toNat hs → hs.length = 32 → dstOk s → carOk s →
        ShareNone (regionOf s.opnd .car) (regionOf s.opnd .dst) → 32 ≤ s.opnd.carLen.toNat →
        accumulate (lsbs hs) ≤ s.opnd.carLen.toNat - 32 → ceilDiv (accumulate (lsbs hs)) 8 ≤ s.opnd.dstLen.toNat →
        j < accumulate (lsbs hs) → memRead s.buf (s.opnd.carAddr.toNat + 32 + j) = none →
        ∃ t, exec .extract s = .next t ∧ FaultRecord.uninitRead (s.opnd.carAddr.toNat + 32 + j) ∈ t.trail.faults ∧
          t.status.done = true

/-- BITSTOBYTE, BITSTOU32 and BITSTOBYTES whatever cells of SRC are unspecified (R44, R80, R83, R85, R87; log 3, 11): where
the checks before the reads pass, they read some Bits and complete with them, or come to a first byte above 1 and end in
BADBIT; what they read agrees with every specified cell. -/
def Obligations.BitReadersRunOnUnspecifiedCells : Prop :=
  ∀ s : State, srcOk s →
    (s.opnd.srcLen.toNat ≤ 8 →
      ∃ t, exec .bitsToByte s = .next t ∧
        BitReadEnds s.opnd.srcLen.toNat (fun bits => CompletedWith (unpackByte bits).toNat 0 s t ∧ t.buf = s.buf) s t) ∧
      (s.opnd.srcLen.toNat = 32 →
        ∃ t, exec .bitsToU32 s = .next t ∧
          BitReadEnds 32 (fun bits => CompletedWith (accumulate bits) 0 s t ∧ t.buf = s.buf) s t) ∧
      (dstOk s → ShareNone (regionOf s.opnd .src) (regionOf s.opnd .dst) →
        ceilDiv s.opnd.srcLen.toNat 8 ≤ s.opnd.dstLen.toNat →
        ∃ t, exec .bitsToBytes s = .next t ∧
          BitReadEnds s.opnd.srcLen.toNat
            (fun bits => CompletedWith 0 (ceilDiv s.opnd.srcLen.toNat 8) s t ∧
              HoldsBytes t.buf s.opnd.dstAddr.toNat (unpackBytes bits) ∧
              SameOutside s.buf t.buf s.opnd.dstAddr.toNat (ceilDiv s.opnd.srcLen.toNat 8)) s t)

/-- EXTRACT whatever cells of CAR are unspecified, header or payload (R44, R94, R98; log 3, 11): where the checks before the
reads pass, it reads some header bytes `hs`; by their value it ends in TRUNCATED_PAYLOAD or DST_SMALL, having read only
these, or reads some payload bytes `cs` and completes with them. What it reads agrees with every specified cell, and every
unspecified cell read is in the fault list, in the order of the reads. -/
def Obligations.ExtractRunsOnUnspecifiedCells : Prop :=
  ∀ s : State, dstOk s → carOk s → ShareNone (regionOf s.opnd .car) (regionOf s.opnd .dst) → 32 ≤ s.opnd.carLen.toNat →
    ∃ t, ∃ hs : List Byte, exec .extract s = .next t ∧ hs.length = 32 ∧ AgreesWith s.buf s.opnd.carAddr.toNat hs ∧
      if s.opnd.carLen.toNat - 32 < accumulate (lsbs hs) then
        FailedWith 3 (accumulate (lsbs hs)) (s.opnd.carLen.toNat - 32) { s with trail := t.trail } t ∧
          t.trail.faults = s.trail.faults ++ uninitRecords s.buf s.opnd.carAddr.toNat 32
      else if s.opnd.dstLen.toNat < ceilDiv (accumulate (lsbs hs)) 8 then
        FailedWith 8 (ceilDiv (accumulate (lsbs hs)) 8) s.opnd.dstLen.toNat { s with trail := t.trail } t ∧
          t.trail.faults = s.trail.faults ++ uninitRecords s.buf s.opnd.carAddr.toNat 32
      else
        ∃ cs : List Byte, cs.length = accumulate (lsbs hs) ∧ AgreesWith s.buf (s.opnd.carAddr.toNat + 32) cs ∧
          CompletedWith cs.length (ceilDiv cs.length 8) s t ∧
          HoldsBytes t.buf s.opnd.dstAddr.toNat (unpackBytes (lsbs cs)) ∧
          SameOutside s.buf t.buf s.opnd.dstAddr.toNat (ceilDiv cs.length 8) ∧
          t.trail.faults = s.trail.faults ++ uninitRecords s.buf s.opnd.carAddr.toNat 32 ++
            uninitRecords s.buf (s.opnd.carAddr.toNat + 32) cs.length

/-! ### The unit functions (40_units.md) -/

/-- `pack_byte` and `u32_to_bits`: element `i` is bit 7 - i of the byte, or bit 31 - i of the word (R64, R66). -/
def Obligations.PackersAreMsbFirst : Prop :=
  (∀ b : Byte, (packByte b).length = 8 ∧ ∀ i, i < 8 → (packByte b)[i]? = some (b.getLsbD (7 - i))) ∧
    ∀ v : Word, (packWord v).length = 32 ∧ ∀ i, i < 32 → (packWord v)[i]? = some (v.getLsbD (31 - i))

/-- `pack_bytes`: 8N Bits, Bit 8j + k is bit 7 - k of byte `j`; none of an empty list (R65). -/
def Obligations.PackBytesJoinsTheBytes : Prop :=
  packBytes [] = [] ∧ ∀ bs : List Byte, (packBytes bs).length = 8 * bs.length ∧
    ∀ j (h : j < bs.length) k, k < 8 → (packBytes bs)[8 * j + k]? = some (bs[j].getLsbD (7 - k))

/-- `frame`: 32 + 8N Bits, the header counts the payload's bits, MSB first, and the payload's Bits follow; a SRC region that
passed its range check meets the bound on N (R67). -/
def Obligations.FrameIsHeaderThenPayload : Prop :=
  (∀ p : List Byte, 8 * p.length ≤ 2 ^ 32 - 1 →
      (frame p).length = 32 + 8 * p.length ∧
        (∀ i, i < 32 → (frame p)[i]? = some ((8 * p.length).testBit (31 - i))) ∧ (frame p).drop 32 = packBytes p) ∧
    ∀ s : State, srcOk s → 8 * s.opnd.srcLen.toNat ≤ 2 ^ 32 - 1

/-- `embed_bit`, as a number: unchanged, one more or one less, never a wrap; its parity is the Bit, it moves by at most 1, and
it keeps a byte whose parity is already right (R68, R69). -/
def Obligations.EmbedBitMovesByAtMostOne : Prop :=
  ∀ (c : Byte) (t : Bit),
    (embedBit c t).toNat =
        (if c.toNat % 2 = t.toNat then c.toNat else if c.toNat % 2 = 0 then c.toNat + 1 else c.toNat - 1) ∧
      (embedBit c t).toNat % 2 = t.toNat ∧ (embedBit c t).toNat ≤ c.toNat + 1 ∧ c.toNat ≤ (embedBit c t).toNat + 1 ∧
      embedBit c (c.getLsbD 0) = c

/-- `lsb` is the byte mod 2, and `lsbs` gives one for each byte, in order (R70). -/
def Obligations.LsbsAreParities : Prop :=
  (∀ c : Byte, (lsb c).toNat = c.toNat % 2 ∧ lsb c = c.getLsbD 0) ∧ lsbs [] = [] ∧
    ∀ cs : List Byte, (lsbs cs).length = cs.length ∧ ∀ i (h : i < cs.length), (lsbs cs)[i]? = some (lsb cs[i])

/-- `bits_to_u32` of 32 Bits is the sum of `bits[i] << (31 - i)`, below 2^32, and gives back the word of `u32_to_bits`
(R71). -/
def Obligations.AccumulateIsTheWeightedSum : Prop :=
  (∀ bits : List Bit, bits.length = 32 →
      accumulate bits = (∑ i ∈ Finset.range 32, (bits.getD i false).toNat <<< (31 - i)) ∧ accumulate bits < 2 ^ 32) ∧
    ∀ v : Word, accumulate (packWord v) = v.toNat

/-- `bits_to_byte` of up to 8 Bits is the sum of `bits[i] << (7 - i)`: a short list fills the high-order places, and the rest
are 0; on 8 Bits it is the inverse of `pack_byte` (R72; conflict C2). -/
def Obligations.UnpackByteIsTheWeightedSum : Prop :=
  (∀ bits : List Bit, bits.length ≤ 8 →
      (unpackByte bits).toNat = ∑ i ∈ Finset.range bits.length, (bits.getD i false).toNat <<< (7 - i)) ∧
    unpackByte [true, true, true] = 0xE0 ∧ unpackByte [true] = 0x80 ∧ unpackByte [] = 0x00 ∧
    (∀ b : Byte, unpackByte (packByte b) = b) ∧ ∀ bits : List Bit, bits.length = 8 → packByte (unpackByte bits) = bits

/-- `bits_to_bytes`: ceil(n/8) bytes, bit 7 - k of byte `j` is Bit 8j + k, or 0 past the end of the list (R73). -/
def Obligations.UnpackBytesTakesChunksOfEight : Prop :=
  ∀ bits : List Bit, (unpackBytes bits).length = (bits.length + 7) / 8 ∧
    ∀ j (h : j < (unpackBytes bits).length) k, k < 8 →
      ((unpackBytes bits)[j]).getLsbD (7 - k) = bits.getD (8 * j + k) false

/-- The four laws of R74: packing and unpacking undo each other. -/
def Obligations.UnitsRoundTrip : Prop :=
  (∀ b : Byte, unpackByte (packByte b) = b) ∧ (∀ v : Word, accumulate (packWord v) = v.toNat) ∧
    (∀ bs : List Byte, unpackBytes (packBytes bs) = bs) ∧
    ∀ bits : List Bit, bits.length % 8 = 0 → packBytes (unpackBytes bits) = bits
end

