-- ==== Sys2Proof/Laws/Memory.lean ====
section
/-! SUPPORT. The laws of the buffer RAM: a read after a write, the canonical form, and what a run of writes leaves (R40,
R43, R81). -/

namespace Sys2Proof.Machine

open Sys2Proof

/-- A write sets its own cell and leaves every other cell (R43). -/
theorem memRead_memWrite (m : Memory) (a : Nat) (v : Byte) (i : Nat) :
    memRead (memWrite m a v) i = if i = a then some v else memRead m i := by
  induction m with
  | nil => simp [memWrite, memRead, eq_comm]
  | cons c rest ih =>
    obtain ⟨b, w⟩ := c
    simp only [memWrite]
    split_ifs <;> simp only [memRead, ih] <;> grind

@[simp] theorem memRead_memWrite_same (m : Memory) (a : Nat) (v : Byte) : memRead (memWrite m a v) a = some v := by
  simp [memRead_memWrite]

theorem memRead_memWrite_other (m : Memory) {a i : Nat} (v : Byte) (h : i ≠ a) :
    memRead (memWrite m a v) i = memRead m i := by
  simp [memRead_memWrite, h]

/-- Where the indices of a written memory come from. -/
theorem mem_memWrite (m : Memory) (a : Nat) (v : Byte) (c : Host.Cell) (h : c ∈ memWrite m a v) : c = (a, v) ∨ c ∈ m := by
  induction m with
  | nil => simp_all [memWrite]
  | cons d rest ih =>
    obtain ⟨b, w⟩ := d
    simp only [memWrite] at h
    split at h
    · simpa using h
    · split at h <;> grind

/-- A write keeps the canonical form. -/
theorem memWrite_wf (m : Memory) (a : Nat) (v : Byte) (h : Memory.wf m) : Memory.wf (memWrite m a v) := by
  induction m with
  | nil => simp [memWrite]
  | cons d rest ih =>
    obtain ⟨b, w⟩ := d
    replace h := List.pairwise_cons.1 h
    simp only [memWrite]
    split
    · refine List.pairwise_cons.2 ⟨?_, List.pairwise_cons.2 h⟩
      intro c hc
      rcases List.mem_cons.1 hc with rfl | hc
      · assumption
      · exact Nat.lt_trans ‹a < b› (h.1 c hc)
    · split
      · subst_vars
        exact List.pairwise_cons.2 h
      · refine List.pairwise_cons.2 ⟨?_, ih h.2⟩
        intro c hc
        rcases mem_memWrite _ _ _ _ hc with rfl | hc
        · show b < a; omega
        · exact h.1 c hc

/-- A write at an index below a bound keeps every index below it. -/
theorem memWrite_bounded (m : Memory) (a : Nat) (v : Byte) (n : Nat) (ha : a < n) (h : ∀ c ∈ m, c.1 < n) :
    ∀ c ∈ memWrite m a v, c.1 < n := by
  intro c hc
  rcases mem_memWrite _ _ _ _ hc with rfl | hc
  · exact ha
  · exact h c hc

@[simp] theorem writeAll_nil (m : Memory) : writeAll m [] = m := rfl

@[simp] theorem writeAll_cons (m : Memory) (w : Nat × Byte) (ws : List (Nat × Byte)) :
    writeAll m (w :: ws) = writeAll (memWrite m w.1 w.2) ws := rfl

/-- Any run of writes keeps the canonical form. -/
theorem writeAll_wf (ws : List (Nat × Byte)) (m : Memory) (h : Memory.wf m) : Memory.wf (writeAll m ws) := by
  induction ws generalizing m with
  | nil => exact h
  | cons w ws ih => exact ih _ (memWrite_wf _ _ _ h)

/-- Writes below a bound keep every index below it. -/
theorem writeAll_bounded (ws : List (Nat × Byte)) (m : Memory) (n : Nat) (hw : ∀ w ∈ ws, w.1 < n)
    (h : ∀ c ∈ m, c.1 < n) : ∀ c ∈ writeAll m ws, c.1 < n := by
  induction ws generalizing m with
  | nil => exact h
  | cons w ws ih =>
    exact ih _ (fun x hx => hw x (List.mem_cons_of_mem _ hx))
      (memWrite_bounded _ _ _ _ (hw w List.mem_cons_self) h)

/-- The indices `write_bytes` writes are those of its region. -/
theorem mem_writeBytes (bs : List Byte) (a : Nat) (w : Nat × Byte) (h : w ∈ writeBytes a bs) :
    a ≤ w.1 ∧ w.1 < a + bs.length := by
  induction bs generalizing a with
  | nil => simp [writeBytes] at h
  | cons v vs ih =>
    rcases List.mem_cons.1 h with rfl | h
    · simp
    · have := ih _ h
      simp only [List.length_cons]
      omega

/-- What the writes of `write_bytes` leave: the region holds the bytes, and every other cell is as before (R81). -/
theorem memRead_writeAll_writeBytes (bs : List Byte) (m : Memory) (a i : Nat) :
    memRead (writeAll m (writeBytes a bs)) i = if a ≤ i ∧ i < a + bs.length then bs[i - a]? else memRead m i := by
  induction bs generalizing a m with
  | nil => simp [writeBytes]
  | cons v vs ih =>
    simp only [writeBytes, writeAll_cons, ih, memRead_memWrite, List.length_cons]
    rcases Nat.lt_trichotomy i a with h | h | h
    · rw [if_neg (by omega), if_neg (by omega), if_neg (by omega)]
    · subst h
      rw [if_neg (by omega), if_pos rfl, if_pos (by omega)]
      simp
    · have e : i - a = (i - (a + 1)) + 1 := by omega
      by_cases h' : i < a + (vs.length + 1)
      · rw [if_pos (by omega), if_pos (by omega), e, List.getElem?_cons_succ]
      · rw [if_neg (by omega), if_neg (by omega), if_neg (by omega)]

/-- After `write_bytes` the region holds the bytes. -/
theorem holdsBytes_writeBytes (bs : List Byte) (m : Memory) (a : Nat) :
    HoldsBytes (writeAll m (writeBytes a bs)) a bs := by
  intro j h
  rw [memRead_writeAll_writeBytes, if_pos (by omega)]
  simp [h]

/-- After `write_bytes` every cell outside the region is as before. -/
theorem sameOutside_writeBytes (bs : List Byte) (m : Memory) (a : Nat) :
    SameOutside m (writeAll m (writeBytes a bs)) a bs.length := by
  intro i h
  rw [memRead_writeAll_writeBytes, if_neg h]

end Sys2Proof.Machine
end

