-- ==== Sys2Proof/Laws/State.lean ====
section
/-! SUPPORT. One lemma per field per update of State: what each update writes, and what it leaves (all by rfl). -/

namespace Sys2Proof.Machine

open Sys2Proof

variable (s : State)

/-! ### issueCommand -/

@[simp] theorem issueCommand_opLatch (w : Word) : (issueCommand w s).opLatch = w := rfl
@[simp] theorem issueCommand_status (w : Word) : (issueCommand w s).status = statusIssued s.status := rfl
@[simp] theorem issueCommand_opnd (w : Word) : (issueCommand w s).opnd = s.opnd := rfl
@[simp] theorem issueCommand_res (w : Word) : (issueCommand w s).res = ResultRegs.reset := rfl
@[simp] theorem issueCommand_buf (w : Word) : (issueCommand w s).buf = s.buf := rfl
@[simp] theorem issueCommand_trail (w : Word) : (issueCommand w s).trail = s.trail := rfl
@[simp] theorem issueCommand_bufLast (w : Word) : (issueCommand w s).bufLast = s.bufLast := rfl
@[simp] theorem issueCommand_program (w : Word) : (issueCommand w s).program = s.program := rfl
@[simp] theorem issueCommand_turns (w : Word) : (issueCommand w s).turns = s.turns := rfl
@[simp] theorem issueCommand_reads (w : Word) : (issueCommand w s).reads = s.reads := rfl

/-! ### complete -/

@[simp] theorem complete_opLatch (r n : Nat) (ws : List (Nat × Byte)) : (complete r n ws s).opLatch = s.opLatch := rfl
@[simp] theorem complete_status (r n : Nat) (ws : List (Nat × Byte)) : (complete r n ws s).status = statusDone s.status := rfl
@[simp] theorem complete_opnd (r n : Nat) (ws : List (Nat × Byte)) : (complete r n ws s).opnd = s.opnd := rfl
@[simp] theorem complete_res (r n : Nat) (ws : List (Nat × Byte)) : (complete r n ws s).res = { s.res with result := BitVec.ofNat 32 r, resultLen := BitVec.ofNat 32 n } := rfl
@[simp] theorem complete_buf (r n : Nat) (ws : List (Nat × Byte)) : (complete r n ws s).buf = writeAll s.buf ws := rfl
@[simp] theorem complete_trail (r n : Nat) (ws : List (Nat × Byte)) : (complete r n ws s).trail = s.trail := rfl
@[simp] theorem complete_bufLast (r n : Nat) (ws : List (Nat × Byte)) : (complete r n ws s).bufLast = s.bufLast := rfl
@[simp] theorem complete_program (r n : Nat) (ws : List (Nat × Byte)) : (complete r n ws s).program = s.program := rfl
@[simp] theorem complete_turns (r n : Nat) (ws : List (Nat × Byte)) : (complete r n ws s).turns = s.turns := rfl
@[simp] theorem complete_reads (r n : Nat) (ws : List (Nat × Byte)) : (complete r n ws s).reads = s.reads := rfl

/-! ### raiseError -/

@[simp] theorem raiseError_opLatch (e : CmdError) : (raiseError e s).opLatch = s.opLatch := rfl
@[simp] theorem raiseError_status (e : CmdError) : (raiseError e s).status = statusError e.code s.status := rfl
@[simp] theorem raiseError_opnd (e : CmdError) : (raiseError e s).opnd = s.opnd := rfl
@[simp] theorem raiseError_res (e : CmdError) : (raiseError e s).res = { s.res with errInfoA := BitVec.ofNat 32 e.a, errInfoB := BitVec.ofNat 32 e.b } := rfl
@[simp] theorem raiseError_buf (e : CmdError) : (raiseError e s).buf = s.buf := rfl
@[simp] theorem raiseError_trail (e : CmdError) : (raiseError e s).trail = s.trail := rfl
@[simp] theorem raiseError_bufLast (e : CmdError) : (raiseError e s).bufLast = s.bufLast := rfl
@[simp] theorem raiseError_program (e : CmdError) : (raiseError e s).program = s.program := rfl
@[simp] theorem raiseError_turns (e : CmdError) : (raiseError e s).turns = s.turns := rfl
@[simp] theorem raiseError_reads (e : CmdError) : (raiseError e s).reads = s.reads := rfl

/-! ### recordFault -/

@[simp] theorem recordFault_opLatch (f : FaultRecord) : (recordFault f s).opLatch = s.opLatch := rfl
@[simp] theorem recordFault_status (f : FaultRecord) : (recordFault f s).status = s.status := rfl
@[simp] theorem recordFault_opnd (f : FaultRecord) : (recordFault f s).opnd = s.opnd := rfl
@[simp] theorem recordFault_res (f : FaultRecord) : (recordFault f s).res = s.res := rfl
@[simp] theorem recordFault_buf (f : FaultRecord) : (recordFault f s).buf = s.buf := rfl
@[simp] theorem recordFault_trail (f : FaultRecord) : (recordFault f s).trail = noteFault f s.trail := rfl
@[simp] theorem recordFault_bufLast (f : FaultRecord) : (recordFault f s).bufLast = s.bufLast := rfl
@[simp] theorem recordFault_program (f : FaultRecord) : (recordFault f s).program = s.program := rfl
@[simp] theorem recordFault_turns (f : FaultRecord) : (recordFault f s).turns = s.turns := rfl
@[simp] theorem recordFault_reads (f : FaultRecord) : (recordFault f s).reads = s.reads := rfl

/-! ### handBack -/

@[simp] theorem handBack_opLatch (sp : Space) (i : Nat) (v : Word) : (handBack sp i v s).opLatch = s.opLatch := rfl
@[simp] theorem handBack_status (sp : Space) (i : Nat) (v : Word) : (handBack sp i v s).status = s.status := rfl
@[simp] theorem handBack_opnd (sp : Space) (i : Nat) (v : Word) : (handBack sp i v s).opnd = s.opnd := rfl
@[simp] theorem handBack_res (sp : Space) (i : Nat) (v : Word) : (handBack sp i v s).res = s.res := rfl
@[simp] theorem handBack_buf (sp : Space) (i : Nat) (v : Word) : (handBack sp i v s).buf = s.buf := rfl
@[simp] theorem handBack_trail (sp : Space) (i : Nat) (v : Word) : (handBack sp i v s).trail = s.trail := rfl
@[simp] theorem handBack_bufLast (sp : Space) (i : Nat) (v : Word) : (handBack sp i v s).bufLast = s.bufLast := rfl
@[simp] theorem handBack_program (sp : Space) (i : Nat) (v : Word) : (handBack sp i v s).program = s.program := rfl
@[simp] theorem handBack_turns (sp : Space) (i : Nat) (v : Word) : (handBack sp i v s).turns = s.turns := rfl
@[simp] theorem handBack_reads (sp : Space) (i : Nat) (v : Word) : (handBack sp i v s).reads = ⟨sp, i, v⟩ :: s.reads := rfl

/-! ### hazard -/

@[simp] theorem hazard_opLatch (a : Access) : (hazard a s).opLatch = s.opLatch := rfl
@[simp] theorem hazard_status (a : Access) : (hazard a s).status = statusHazard s.status := rfl
@[simp] theorem hazard_opnd (a : Access) : (hazard a s).opnd = s.opnd := rfl
@[simp] theorem hazard_res (a : Access) : (hazard a s).res = s.res := rfl
@[simp] theorem hazard_buf (a : Access) : (hazard a s).buf = s.buf := rfl
@[simp] theorem hazard_trail (a : Access) : (hazard a s).trail = noteFault (.hazard a) s.trail := rfl
@[simp] theorem hazard_bufLast (a : Access) : (hazard a s).bufLast = s.bufLast := rfl
@[simp] theorem hazard_program (a : Access) : (hazard a s).program = s.program := rfl
@[simp] theorem hazard_turns (a : Access) : (hazard a s).turns = s.turns := rfl
@[simp] theorem hazard_reads (a : Access) : (hazard a s).reads = s.reads := rfl

/-! ### drawFree -/

@[simp] theorem drawFree_opLatch : (drawFree s).opLatch = s.opLatch := rfl
@[simp] theorem drawFree_status : (drawFree s).status = s.status := rfl
@[simp] theorem drawFree_opnd : (drawFree s).opnd = s.opnd := rfl
@[simp] theorem drawFree_res : (drawFree s).res = s.res := rfl
@[simp] theorem drawFree_buf : (drawFree s).buf = s.buf := rfl
@[simp] theorem drawFree_trail : (drawFree s).trail = noteDraw s.trail := rfl
@[simp] theorem drawFree_bufLast : (drawFree s).bufLast = s.bufLast := rfl
@[simp] theorem drawFree_program : (drawFree s).program = s.program := rfl
@[simp] theorem drawFree_turns : (drawFree s).turns = s.turns := rfl
@[simp] theorem drawFree_reads : (drawFree s).reads = s.reads := rfl

/-! ### resetEvent -/

@[simp] theorem resetEvent_opLatch : (resetEvent s).opLatch = 0 := rfl
@[simp] theorem resetEvent_status : (resetEvent s).status = Status.reset := rfl
@[simp] theorem resetEvent_opnd : (resetEvent s).opnd = OperandRegs.reset := rfl
@[simp] theorem resetEvent_res : (resetEvent s).res = ResultRegs.reset := rfl
@[simp] theorem resetEvent_buf : (resetEvent s).buf = [] := rfl
@[simp] theorem resetEvent_trail : (resetEvent s).trail = s.trail := rfl
@[simp] theorem resetEvent_bufLast : (resetEvent s).bufLast = s.bufLast := rfl
@[simp] theorem resetEvent_program : (resetEvent s).program = s.program := rfl
@[simp] theorem resetEvent_turns : (resetEvent s).turns = s.turns := rfl
@[simp] theorem resetEvent_reads : (resetEvent s).reads = s.reads := rfl

/-! ### takeTurn -/

@[simp] theorem takeTurn_opLatch : (takeTurn s).opLatch = s.opLatch := rfl
@[simp] theorem takeTurn_status : (takeTurn s).status = s.status := rfl
@[simp] theorem takeTurn_opnd : (takeTurn s).opnd = s.opnd := rfl
@[simp] theorem takeTurn_res : (takeTurn s).res = s.res := rfl
@[simp] theorem takeTurn_buf : (takeTurn s).buf = s.buf := rfl
@[simp] theorem takeTurn_trail : (takeTurn s).trail = s.trail := rfl
@[simp] theorem takeTurn_bufLast : (takeTurn s).bufLast = s.bufLast := rfl
@[simp] theorem takeTurn_program : (takeTurn s).program = s.program := rfl
@[simp] theorem takeTurn_turns : (takeTurn s).turns = s.turns.tail := rfl
@[simp] theorem takeTurn_reads : (takeTurn s).reads = s.reads := rfl

/-! ### STATUS and the trail -/

@[simp] theorem statusIssued_busy (st : Status) : (statusIssued st).busy = true := rfl
@[simp] theorem statusIssued_done (st : Status) : (statusIssued st).done = false := rfl
@[simp] theorem statusIssued_err (st : Status) : (statusIssued st).err = false := rfl
@[simp] theorem statusIssued_haz (st : Status) : (statusIssued st).haz = st.haz := rfl
@[simp] theorem statusIssued_errCode (st : Status) : (statusIssued st).errCode = 0 := rfl
@[simp] theorem statusDone_busy (st : Status) : (statusDone st).busy = false := rfl
@[simp] theorem statusDone_done (st : Status) : (statusDone st).done = true := rfl
@[simp] theorem statusDone_err (st : Status) : (statusDone st).err = false := rfl
@[simp] theorem statusDone_haz (st : Status) : (statusDone st).haz = st.haz := rfl
@[simp] theorem statusDone_errCode (st : Status) : (statusDone st).errCode = 0 := rfl
@[simp] theorem statusError_busy (c : ErrCode) (st : Status) : (statusError c st).busy = false := rfl
@[simp] theorem statusError_done (c : ErrCode) (st : Status) : (statusError c st).done = false := rfl
@[simp] theorem statusError_err (c : ErrCode) (st : Status) : (statusError c st).err = true := rfl
@[simp] theorem statusError_haz (c : ErrCode) (st : Status) : (statusError c st).haz = st.haz := rfl
@[simp] theorem statusError_errCode (c : ErrCode) (st : Status) : (statusError c st).errCode = errCodeBits c := rfl
@[simp] theorem statusHazard_busy (st : Status) : (statusHazard st).busy = st.busy := rfl
@[simp] theorem statusHazard_done (st : Status) : (statusHazard st).done = st.done := rfl
@[simp] theorem statusHazard_err (st : Status) : (statusHazard st).err = st.err := rfl
@[simp] theorem statusHazard_haz (st : Status) : (statusHazard st).haz = true := rfl
@[simp] theorem statusHazard_errCode (st : Status) : (statusHazard st).errCode = st.errCode := rfl
@[simp] theorem noteFault_draws (f : FaultRecord) (t : Trail) : (noteFault f t).draws = t.draws := rfl
@[simp] theorem noteFault_faults (f : FaultRecord) (t : Trail) : (noteFault f t).faults = t.faults ++ [f] := rfl
@[simp] theorem noteDraw_draws (t : Trail) : (noteDraw t).draws = t.draws + 1 := rfl
@[simp] theorem noteDraw_faults (t : Trail) : (noteDraw t).faults = t.faults := rfl

end Sys2Proof.Machine
end

