-- ==== Sys2Proof/Laws/Units.lean ====
section
/-! SUPPORT. Lengths and small facts of the unit functions (R63 to R73). -/

namespace Sys2Proof.Machine

open Sys2Proof

@[simp] theorem bitByte_toNat (b : Bit) : (bitByte b).toNat = b.toNat := by cases b <;> rfl

theorem bitByte_toNat_le (b : Bit) : (bitByte b).toNat ≤ 1 := by cases b <;> decide

@[simp] theorem bitByte_eq_one (b : Bit) : ((bitByte b).toNat == 1) = b := by cases b <;> decide

@[simp] theorem packByte_length (b : Byte) : (packByte b).length = 8 := rfl

@[simp] theorem packBytes_nil : packBytes [] = [] := rfl

@[simp] theorem packBytes_cons (b : Byte) (bs : List Byte) : packBytes (b :: bs) = packByte b ++ packBytes bs := rfl

@[simp] theorem packBytes_length (bs : List Byte) : (packBytes bs).length = 8 * bs.length := by
  induction bs with
  | nil => rfl
  | cons b bs ih => simp [ih]; omega

@[simp] theorem packWord_length (v : Word) : (packWord v).length = 32 := by simp [packWord]

theorem packWord_getElem (v : Word) (i : Nat) (h : i < (packWord v).length) : (packWord v)[i] = v.getLsbD (31 - i) := by
  simp [packWord]

@[simp] theorem frame_length (p : List Byte) : (frame p).length = 32 + 8 * p.length := by simp [frame]

@[simp] theorem lsbs_length (cs : List Byte) : (lsbs cs).length = cs.length := by simp [lsbs]

@[simp] theorem unpackBytes_length (bits : List Bit) : (unpackBytes bits).length = ceilDiv bits.length 8 := by
  simp [unpackBytes]

/-- The accumulator of the first bits goes on with the next ones (R71). -/
theorem accumulate_append_one (bits : List Bit) (b : Bit) : accumulate (bits ++ [b]) = 2 * accumulate bits + b.toNat := by
  simp [accumulate]

/-- `n` bits accumulate to a value below `2 ^ n` (R71). -/
theorem accumulate_lt (bits : List Bit) : accumulate bits < 2 ^ bits.length := by
  induction bits using List.reverseRecOn with
  | nil => simp [accumulate]
  | append_singleton bits b ih =>
    have hb : b.toNat ≤ 1 := by cases b <;> decide
    rw [accumulate_append_one, List.length_append, List.length_singleton, pow_succ]
    omega

/-- A byte count is no larger than its bit count, and covers it (R13). -/
theorem ceilDiv_le (n : Nat) : ceilDiv n 8 ≤ n := by unfold ceilDiv; omega

end Sys2Proof.Machine
end

