-- ==== Sys2Proof/Laws/Ops.lean ====
section
/-! SUPPORT. One lemma per shared operation of the engine: reads of cells, regions and Bit sequences, the checks, and the
end of a command (40_units.md R75 to R81). -/

namespace Sys2Proof.Machine

open Sys2Proof

/-- A later trail: the fault list only grew at its end (R36), and no draw was taken back (log 3). -/
structure TrailGrows (t t' : Trail) : Prop where
  faults : t.faults <+: t'.faults
  draws : t.draws ≤ t'.draws

theorem TrailGrows.refl (t : Trail) : TrailGrows t t := ⟨List.prefix_rfl, Nat.le_refl _⟩

theorem TrailGrows.trans {t t' t'' : Trail} (h : TrailGrows t t') (h' : TrailGrows t' t'') : TrailGrows t t'' :=
  ⟨h.faults.trans h'.faults, Nat.le_trans h.draws h'.draws⟩

theorem noteFault_grows (f : FaultRecord) (t : Trail) : TrailGrows t (noteFault f t) :=
  ⟨List.prefix_append _ _, Nat.le_refl _⟩

theorem noteDraw_grows (t : Trail) : TrailGrows t (noteDraw t) := ⟨List.prefix_rfl, Nat.le_succ _⟩

/-! ### Reads -/

theorem readCell_of_some {m : Memory} {a : Nat} {v : Byte} (h : memRead m a = some v) (t : Trail) :
    readCell m a t = (v, t) := by
  simp [readCell, h]

theorem readCell_of_none {m : Memory} {a : Nat} (h : memRead m a = none) (t : Trail) :
    readCell m a t = (Config.freeByte t.draws, noteFault (.uninitRead a) (noteDraw t)) := by
  simp [readCell, h]

theorem readCell_grows (m : Memory) (a : Nat) (t : Trail) : TrailGrows t (readCell m a t).2 := by
  cases h : memRead m a with
  | none => rw [readCell_of_none h]; exact (noteDraw_grows t).trans (noteFault_grows _ _)
  | some v => rw [readCell_of_some h]; exact .refl t

@[simp] theorem readBytes_length (m : Memory) (n a : Nat) (t : Trail) : (readBytes m a n t).1.length = n := by
  induction n generalizing a t with
  | zero => rfl
  | succ n ih => simp [readBytes, ih]

theorem readBytes_grows (m : Memory) (n a : Nat) (t : Trail) : TrailGrows t (readBytes m a n t).2 := by
  induction n generalizing a t with
  | zero => exact .refl t
  | succ n ih => exact (readCell_grows m a t).trans (ih _ _)

/-- The cells of a region that holds bytes, one cell taken off its front. -/
theorem HoldsBytes.tail {m : Memory} {a : Nat} {b : Byte} {bs : List Byte} (h : HoldsBytes m a (b :: bs)) :
    memRead m a = some b ∧ HoldsBytes m (a + 1) bs := by
  refine ⟨by have := h 0 (by simp); rwa [Nat.add_zero, List.getElem_cons_zero] at this, fun j hj => ?_⟩
  have := h (j + 1) (by simpa using hj)
  simpa [Nat.add_assoc, Nat.add_comm 1 j] using this

/-- `read_bytes` of a region that holds bytes gives them, and records nothing (R80). -/
theorem readBytes_of_holds {m : Memory} {a : Nat} {bs : List Byte} (h : HoldsBytes m a bs) (t : Trail) :
    readBytes m a bs.length t = (bs, t) := by
  induction bs generalizing a with
  | nil => rfl
  | cons b bs ih => simp [readBytes, readCell_of_some h.tail.1, ih h.tail.2]

/-- `read_bits` of a region that holds Bits gives them, and records nothing (R80). -/
theorem readBitsFrom_of_holds {m : Memory} {a j : Nat} {bits : List Bit} (h : HoldsBits m (a + j) bits) (t : Trail) :
    readBitsFrom m a j bits.length t = (.ok bits, t) := by
  induction bits generalizing j with
  | nil => rfl
  | cons b bits ih =>
    have hc := HoldsBytes.tail h
    have hb := bitByte_toNat_le b
    have hrec : readBitsFrom m a (j + 1) bits.length t = (.ok bits, t) := ih (by simpa [Nat.add_assoc] using hc.2)
    simp only [List.length_cons, readBitsFrom, readCell_of_some hc.1, hrec]
    rw [if_neg (by omega)]
    simp only [Except.map, bitByte_eq_one]

theorem readBits_of_holds {m : Memory} {a : Nat} {bits : List Bit} (h : HoldsBits m a bits) (t : Trail) :
    readBits m a bits.length t = (.ok bits, t) :=
  readBitsFrom_of_holds (j := 0) h t

/-- `read_bits` stops at the first bit-byte above 1 with BADBIT, its offset and its value (R80). -/
theorem readBitsFrom_badBit {m : Memory} {a j n : Nat} {pre : List Bit} {v : Byte} (h : HoldsBits m (a + j) pre)
    (hv : memRead m (a + j + pre.length) = some v) (h1 : 1 < v.toNat) (hn : pre.length < n) (t : Trail) :
    readBitsFrom m a j n t = (.error ⟨.badBit, j + pre.length, v.toNat⟩, t) := by
  induction pre generalizing j n with
  | nil =>
    obtain ⟨n, rfl⟩ := Nat.exists_eq_succ_of_ne_zero (Nat.ne_of_gt hn)
    simp only [List.length_nil, Nat.add_zero] at hv
    simp [readBitsFrom, readCell_of_some hv, h1]
  | cons b pre ih =>
    obtain ⟨n, rfl⟩ := Nat.exists_eq_succ_of_ne_zero (Nat.ne_of_gt (Nat.lt_of_le_of_lt (Nat.zero_le _) hn))
    have hc := HoldsBytes.tail h
    have hb := bitByte_toNat_le b
    simp only [List.length_cons] at hn
    have hrec : readBitsFrom m a (j + 1) n t = (.error ⟨.badBit, j + 1 + pre.length, v.toNat⟩, t) :=
      ih (by simpa [Nat.add_assoc] using hc.2)
        (by rw [show a + (j + 1) + pre.length = a + j + (b :: pre).length from by simp only [List.length_cons]; omega]; exact hv)
        (by omega)
    simp only [readBitsFrom, readCell_of_some hc.1, hrec]
    rw [if_neg (by omega)]
    simp only [List.length_cons, Except.map]
    congr 3
    omega

theorem readBits_badBit {m : Memory} {a n : Nat} {pre : List Bit} {v : Byte} (h : HoldsBits m a pre)
    (hv : memRead m (a + pre.length) = some v) (h1 : 1 < v.toNat) (hn : pre.length < n) (t : Trail) :
    readBits m a n t = (.error ⟨.badBit, pre.length, v.toNat⟩, t) := by
  have := readBitsFrom_badBit (j := 0) h hv h1 hn t
  simpa [readBits] using this

theorem readBitsFrom_grows (m : Memory) (a n j : Nat) (t : Trail) : TrailGrows t (readBitsFrom m a j n t).2 := by
  induction n generalizing j t with
  | zero => exact .refl t
  | succ n ih =>
    simp only [readBitsFrom]
    split
    · exact readCell_grows _ _ _
    · exact (readCell_grows _ _ _).trans (ih _ _)

theorem readBits_grows (m : Memory) (a n : Nat) (t : Trail) : TrailGrows t (readBits m a n t).2 :=
  readBitsFrom_grows m a n 0 t

/-- What `read_bits` can answer: as many Bits as were asked for, or BADBIT (R80). -/
theorem readBitsFrom_cases (m : Memory) (a n j : Nat) (t : Trail) :
    (∃ bits, (readBitsFrom m a j n t).1 = .ok bits ∧ bits.length = n) ∨
      ∃ k v : Nat, (readBitsFrom m a j n t).1 = .error ⟨.badBit, k, v⟩ := by
  induction n generalizing j t with
  | zero => exact .inl ⟨[], rfl, rfl⟩
  | succ n ih =>
    simp only [readBitsFrom]
    split
    · exact .inr ⟨_, _, rfl⟩
    · rcases ih (j + 1) (readCell m (a + j) t).2 with ⟨bits, h, hl⟩ | ⟨k, v, h⟩
      · exact .inl ⟨((readCell m (a + j) t).1.toNat == 1) :: bits, by simp only [h, Except.map], by simp [hl]⟩
      · exact .inr ⟨k, v, by simp only [h, Except.map]⟩

theorem readBits_cases (m : Memory) (a n : Nat) (t : Trail) :
    (∃ bits t', readBits m a n t = (.ok bits, t') ∧ bits.length = n ∧ TrailGrows t t') ∨
      ∃ (k v : Nat) (t' : Trail), readBits m a n t = (.error ⟨.badBit, k, v⟩, t') ∧ TrailGrows t t' := by
  have hg := readBits_grows m a n t
  rcases readBitsFrom_cases m a n 0 t with ⟨bits, h, hl⟩ | ⟨k, v, h⟩
  · exact .inl ⟨bits, _, Prod.ext h rfl, hl, hg⟩
  · exact .inr ⟨k, v, _, Prod.ext h rfl, hg⟩

/-! ### Reads of any cells, specified or not (R44) -/

/-- The UNINIT_READ records of a region, its first cell taken off. -/
theorem uninitRecords_succ (m : Memory) (a n : Nat) :
    uninitRecords m a (n + 1) =
      (if (memRead m a).isNone then [FaultRecord.uninitRead a] else []) ++ uninitRecords m (a + 1) n := by
  have e1 : (fun j => (memRead m (a + j)).isNone) ∘ Nat.succ = fun j => (memRead m (a + 1 + j)).isNone := by
    funext j
    simp only [Function.comp, Nat.succ_eq_add_one, Nat.add_assoc, Nat.add_comm 1 j]
  have e2 : (fun j => FaultRecord.uninitRead (a + j)) ∘ Nat.succ = fun j => FaultRecord.uninitRead (a + 1 + j) := by
    funext j
    simp only [Function.comp, Nat.succ_eq_add_one, Nat.add_assoc, Nat.add_comm 1 j]
  unfold uninitRecords
  rw [List.range_succ_eq_map, List.filter_cons, List.filter_map, e1]
  split <;> simp_all

/-- Bytes that agree with a region, one cell put before it. -/
theorem AgreesWith.cons {m : Memory} {a : Nat} {b : Byte} {bs : List Byte} (hb : ∀ v, memRead m a = some v → b = v)
    (h : AgreesWith m (a + 1) bs) : AgreesWith m a (b :: bs) := by
  intro j hj v hv
  cases j with
  | zero => exact hb v hv
  | succ j => exact h j _ v (by rw [show a + 1 + j = a + (j + 1) by omega]; exact hv)

/-- A read of one cell: the cell's own byte where it is specified, and the record of the read where it is not. -/
theorem readCell_spec (m : Memory) (a : Nat) (t : Trail) :
    (∀ v, memRead m a = some v → (readCell m a t).1 = v) ∧
      (readCell m a t).2.faults = t.faults ++ if (memRead m a).isNone then [FaultRecord.uninitRead a] else [] := by
  cases h : memRead m a with
  | none => simp [readCell_of_none h]
  | some v => simp [readCell_of_some h]

/-- `read_bytes` of any cells: bytes that agree with every specified one, and a record for every other (R44, R80). -/
theorem readBytes_spec (m : Memory) (n a : Nat) (t : Trail) :
    AgreesWith m a (readBytes m a n t).1 ∧ (readBytes m a n t).2.faults = t.faults ++ uninitRecords m a n := by
  induction n generalizing a t with
  | zero => exact ⟨fun j hj => absurd hj (Nat.not_lt_zero j), by simp [readBytes, uninitRecords]⟩
  | succ n ih =>
    obtain ⟨hc, hf⟩ := readCell_spec m a t
    obtain ⟨h1, h2⟩ := ih (a + 1) (readCell m a t).2
    exact ⟨h1.cons hc, by simp only [readBytes, h2, hf, uninitRecords_succ, List.append_assoc]⟩

/-- `read_bits` of any cells: Bits that agree with every specified one, or BADBIT at the first byte above 1, with nothing
read after it; and a record for every unspecified cell read (R44, R80). -/
theorem readBitsFrom_spec (m : Memory) (a n j : Nat) (t : Trail) :
    (∃ bits t', readBitsFrom m a j n t = (.ok bits, t') ∧ bits.length = n ∧ AgreesWith m (a + j) (bits.map bitByte) ∧
        t'.faults = t.faults ++ uninitRecords m (a + j) n) ∨
      ∃ (pre : List Bit) (v : Byte) (t' : Trail),
        readBitsFrom m a j n t = (.error ⟨.badBit, j + pre.length, v.toNat⟩, t') ∧ pre.length < n ∧ 1 < v.toNat ∧
          AgreesWith m (a + j) (pre.map bitByte ++ [v]) ∧
          t'.faults = t.faults ++ uninitRecords m (a + j) (pre.length + 1) := by
  induction n generalizing j t with
  | zero => exact .inl ⟨[], t, rfl, rfl, fun j hj => absurd hj (Nat.not_lt_zero j), by simp [uninitRecords]⟩
  | succ n ih =>
    obtain ⟨hc, hf⟩ := readCell_spec m (a + j) t
    simp only [readBitsFrom]
    split
    · next h =>
      refine .inr ⟨[], _, _, rfl, by simp, h, AgreesWith.cons hc fun j hj => absurd hj (Nat.not_lt_zero j), ?_⟩
      simp only [hf, uninitRecords_succ, List.length_nil]
      simp [uninitRecords]
    · next h =>
      have hb : bitByte ((readCell m (a + j) t).1.toNat == 1) = (readCell m (a + j) t).1 := by
        generalize (readCell m (a + j) t).1 = b at h
        apply BitVec.eq_of_toNat_eq
        rcases (by omega : b.toNat = 0 ∨ b.toNat = 1) with h | h <;> simp [h]
      rcases ih (j + 1) (readCell m (a + j) t).2 with ⟨bits, t', h1, h2, h3, h4⟩ | ⟨pre, v, t', h1, h2, h3, h4, h5⟩
      · refine .inl ⟨((readCell m (a + j) t).1.toNat == 1) :: bits, t', by simp only [h1, Except.map], by simp [h2], ?_, ?_⟩
        · rw [List.map_cons, hb]
          exact h3.cons hc
        · rw [h4, hf, uninitRecords_succ, List.append_assoc, Nat.add_assoc]
      · refine .inr ⟨((readCell m (a + j) t).1.toNat == 1) :: pre, v, t', ?_, by simpa using h2, h3, ?_, ?_⟩
        · simp only [h1, Except.map, List.length_cons]
          congr 3
          omega
        · rw [List.map_cons, hb]
          exact h4.cons hc
        · rw [h5, hf, List.length_cons, uninitRecords_succ m (a + j) (pre.length + 1), List.append_assoc, Nat.add_assoc]

theorem readBits_spec (m : Memory) (a n : Nat) (t : Trail) :
    (∃ bits t', readBits m a n t = (.ok bits, t') ∧ bits.length = n ∧ AgreesWith m a (bits.map bitByte) ∧
        t'.faults = t.faults ++ uninitRecords m a n) ∨
      ∃ (pre : List Bit) (v : Byte) (t' : Trail),
        readBits m a n t = (.error ⟨.badBit, pre.length, v.toNat⟩, t') ∧ pre.length < n ∧ 1 < v.toNat ∧
          AgreesWith m a (pre.map bitByte ++ [v]) ∧ t'.faults = t.faults ++ uninitRecords m a (pre.length + 1) := by
  have := readBitsFrom_spec m a n 0 t
  simpa only [readBits, Nat.zero_add, Nat.add_zero] using this

/-! ### Checks -/

@[simp] theorem firstError_nil : firstError [] = none := rfl

@[simp] theorem firstError_none (cs : List (Option CmdError)) : firstError (none :: cs) = firstError cs := rfl

@[simp] theorem firstError_some (e : CmdError) (cs : List (Option CmdError)) : firstError (some e :: cs) = some e := rfl

theorem raiseIf_of_true {bad : Bool} (h : bad = true) (c : ErrCode) (a b : Nat) : raiseIf bad c a b = some ⟨c, a, b⟩ := by
  simp [raiseIf, h]

theorem raiseIf_of_false {bad : Bool} (h : bad = false) (c : ErrCode) (a b : Nat) : raiseIf bad c a b = none := by
  simp [raiseIf, h]

/-- The two ways out of a list of checks (R102). -/
theorem afterChecks_cases (cs : List (Option CmdError)) (t : Trail) (go : Trail → CmdOutcome × Trail) :
    (∃ e, firstError cs = some e ∧ afterChecks cs t go = (.error e, t)) ∨
      (firstError cs = none ∧ afterChecks cs t go = go t) := by
  unfold afterChecks
  cases h : firstError cs with
  | none => exact .inr ⟨rfl, rfl⟩
  | some e => exact .inl ⟨e, rfl, rfl⟩

theorem afterChecks_error {cs : List (Option CmdError)} {e : CmdError} (h : firstError cs = some e) (t : Trail)
    (go : Trail → CmdOutcome × Trail) : afterChecks cs t go = (.error e, t) := by
  simp [afterChecks, h]

theorem afterChecks_pass {cs : List (Option CmdError)} (h : firstError cs = none) (t : Trail)
    (go : Trail → CmdOutcome × Trail) : afterChecks cs t go = go t := by
  simp [afterChecks, h]

/-- Checks all passed: each of them did. -/
theorem firstError_eq_none {cs : List (Option CmdError)} : firstError cs = none ↔ ∀ c ∈ cs, c = none := by
  simp [firstError, List.findSome?_eq_none_iff]

theorem checkRange_none {s : State} {n : RegionName} :
    checkRange s n = none ↔ (regionOf s.opnd n).addr + (regionOf s.opnd n).len ≤ bufSize s := by
  simp [checkRange, raiseIf, inRange]

theorem checkRange_some {s : State} {n : RegionName}
    (h : ¬(regionOf s.opnd n).addr + (regionOf s.opnd n).len ≤ bufSize s) :
    checkRange s n = some ⟨.range, regionCode n, 0⟩ := by
  simp [checkRange, raiseIf, inRange]
  omega

theorem checkDst_none {s : State} {need : Nat} : checkDst s need = none ↔ need ≤ s.opnd.dstLen.toNat := by
  simp [checkDst, raiseIf]

theorem checkDst_some {s : State} {need : Nat} (h : s.opnd.dstLen.toNat < need) :
    checkDst s need = some ⟨.dstSmall, need, s.opnd.dstLen.toNat⟩ := by
  simp [checkDst, raiseIf, h]

/-- The overlap test of R15 says exactly that some index is shared. -/
theorem overlaps_eq_false {r q : Region} : overlaps r q = false ↔ ShareNone r q := by
  obtain ⟨a, n⟩ := r
  obtain ⟨b, k⟩ := q
  simp only [overlaps, ShareNone, Bool.and_eq_false_iff, bne_eq_false_iff_eq, decide_eq_false_iff_not]
  constructor
  · intro h i
    omega
  · intro h
    have h1 := h a
    have h2 := h b
    omega

theorem checkOverlap_none {s : State} {n k : RegionName} :
    checkOverlap s n k = none ↔ ShareNone (regionOf s.opnd n) (regionOf s.opnd k) := by
  rw [← overlaps_eq_false]
  simp [checkOverlap, raiseIf]

theorem checkOverlap_some {s : State} {n k : RegionName} (h : ¬ShareNone (regionOf s.opnd n) (regionOf s.opnd k)) :
    checkOverlap s n k = some ⟨.overlap, regionCode n, regionCode k⟩ := by
  rw [← overlaps_eq_false] at h
  simp only [checkOverlap]
  exact raiseIf_of_true (by simpa using h) _ _ _

/-- BUF_SIZE is at most 2^28 (R8). -/
theorem bufSize_le (s : State) : bufSize s ≤ 2 ^ 28 := s.bufLast.isLt

/-- BUF_SIZE is at least 1 (R8). -/
theorem bufSize_pos (s : State) : 1 ≤ bufSize s := Nat.le_add_left _ _

/-! ### The end of a command -/

/-- The two ends of an engine step (R75): completion (R76) or error (R77). -/
theorem finishCommand_done (r n : Nat) (ws : List (Nat × Byte)) (t : Trail) (s : State) :
    finishCommand (.done r n ws, t) s = complete r n ws { s with trail := t } := rfl

theorem finishCommand_error (e : CmdError) (t : Trail) (s : State) :
    finishCommand (.error e, t) s = raiseError e { s with trail := t } := rfl

/-- A completion without error, in the terms claims use (R76). -/
theorem completedWith_complete {r n : Nat} (hr : r < 2 ^ 32) (hn : n < 2 ^ 32) (ws : List (Nat × Byte)) (t : Trail)
    (s : State) : CompletedWith r n s (complete r n ws { s with trail := t }) where
  status := rfl
  result := Nat.mod_eq_of_lt hr
  resultLen := Nat.mod_eq_of_lt hn
  errInfoA := id
  errInfoB := id
  rest := ⟨rfl, rfl, rfl, rfl, rfl, rfl⟩

/-- A completion with error, in the terms claims use (R77). -/
theorem failedWith_raiseError (c : ErrCode) {a b : Nat} (ha : a < 2 ^ 32) (hb : b < 2 ^ 32) (s : State) :
    FailedWith (errCodeBits c).toNat a b s (raiseError ⟨c, a, b⟩ s) where
  status := by simp [statusError, BitVec.ofNat_toNat]
  errInfoA := Nat.mod_eq_of_lt ha
  errInfoB := Nat.mod_eq_of_lt hb
  result := id
  resultLen := id
  buf := rfl
  trail := rfl
  rest := ⟨rfl, rfl, rfl, rfl, rfl, rfl⟩

end Sys2Proof.Machine
end

