-- ==== Sys2Proof/Laws/Bus.lean ====
section
/-! SUPPORT. The CSR map, and what a host access, a host move and the reset event can do (R23 to R33, R42 to R46, R113). -/

namespace Sys2Proof.Machine

open Sys2Proof

/-- Every register stands at its offset (R23). -/
@[simp] theorem csrAt_csrOffset (c : Csr) : csrAt (csrOffset c) = some c := by cases c <;> rfl

/-- A register is reached only at its own offset. -/
theorem csrOffset_of_csrAt {i : Nat} {c : Csr} (h : csrAt i = some c) : i = csrOffset c := by
  unfold csrAt at h
  split at h <;> first | (cases h; rfl) | cases h

/-- The offsets with a register: the multiples of 4 below 0x40 (R45). -/
theorem csrAt_isSome (i : Nat) : (csrAt i).isSome ↔ i % 4 = 0 ∧ i < 0x40 := by
  by_cases h : i < 0x40
  · interval_cases i <;> decide
  · have : csrAt i = none := by unfold csrAt; split <;> first | omega | rfl
    simp [this, h]

@[simp] theorem target_csr (s : State) (c : Csr) : target s .csr (csrOffset c) 32 = some (.reg c) := by simp [target]

theorem target_buf {s : State} {i : Nat} (h : i < bufSize s) : target s .buf i 8 = some (.cell i) := by simp [target, h]

/-- What an access of a defined form reaches. -/
theorem target_cases {s : State} {sp : Space} {i w : Nat} {g : Target} (h : target s sp i w = some g) :
    (∃ c, g = .reg c ∧ sp = .csr ∧ i = csrOffset c ∧ w = 32) ∨ (g = .cell i ∧ sp = .buf ∧ i < bufSize s ∧ w = 8) := by
  unfold target at h
  split at h
  · split at h
    · cases hc : csrAt i with
      | none => simp [hc] at h
      | some c =>
        simp only [hc, Option.map_some, Option.some.injEq] at h
        exact .inl ⟨c, h.symm, rfl, csrOffset_of_csrAt hc, ‹_›⟩
    · cases h
  · split at h
    · simp only [Option.some.injEq] at h
      have hw : w = 8 ∧ i < bufSize s := by assumption
      exact .inr ⟨h.symm, rfl, hw.2, hw.1⟩
    · cases h

/-- What a CSR write while idle can do: issue a command, set operand registers, or nothing. -/
theorem writeCsr_cases (c : Csr) (v : Word) (s : State) :
    (c = .cmd ∧ writeCsr c v s = issueCommand v s) ∨ ∃ o, writeCsr c v s = { s with opnd := o } := by
  cases c <;> first | exact .inl ⟨rfl, rfl⟩ | exact .inr ⟨_, rfl⟩

/-- What a host access can do. It refuses (R45, R46), is a hazard (R113), reads, issues a command (R24), sets operand
registers (R26 to R29), or writes a cell (R42). -/
inductive HostEffect (a : Access) (s : State) : State → Prop
  | refused (sp : Space) (i w : Nat) : HostEffect a s (recordFault (.refusedAccess sp i w) s)
  | hazardWrite (busy : s.status.busy = true) : HostEffect a s (hazard a s)
  | hazardRead (busy : s.status.busy = true) (sp : Space) (i : Nat) (v : Word) :
      HostEffect a s (handBack sp i v (hazard a (drawFree s)))
  | read (sp : Space) (i : Nat) (v : Word) : HostEffect a s (handBack sp i v s)
  | readCell (i : Nat) (idle : s.status.busy = false) :
      HostEffect a s (handBack .buf i ((readCell s.buf i s.trail).1.setWidth 32)
        { s with trail := (readCell s.buf i s.trail).2 })
  | issue (v : Word) (idle : s.status.busy = false) (isCmd : a = .write .csr 0 32 v) : HostEffect a s (issueCommand v s)
  | setOperands (o : OperandRegs) (idle : s.status.busy = false) : HostEffect a s { s with opnd := o }
  | writeCell (i : Nat) (v : Byte) (inside : i < bufSize s) (idle : s.status.busy = false) :
      HostEffect a s { s with buf := memWrite s.buf i v }

theorem hostAccess_effect (a : Access) (s : State) : HostEffect a s (hostAccess a s) := by
  cases a with
  | read sp i w =>
    simp only [hostAccess, hostRead]
    split
    · exact .refused sp i w
    · split
      · exact .hazardRead (by simp_all) sp i _
      · exact .read sp i _
    · rename_i j hj
      rcases target_cases hj with ⟨c, hc, _⟩ | ⟨hj', rfl, _⟩
      · cases hc
      · cases hj'
        split
        · exact .hazardRead (by assumption) .buf i _
        · exact .readCell i (by simp_all)
  | write sp i w d =>
    simp only [hostAccess, hostWrite]
    split
    · exact .refused sp i w
    · rename_i c hc
      rcases target_cases hc with ⟨c', hc', rfl, rfl, rfl⟩ | ⟨hj', _⟩
      · cases hc'
        split
        · exact .hazardWrite (by assumption)
        · rcases writeCsr_cases c d s with ⟨rfl, h⟩ | ⟨o, h⟩
          · rw [h]; exact .issue d (by simp_all) rfl
          · rw [h]; exact .setOperands o (by simp_all)
      · cases hj'
    · rename_i j hj
      rcases target_cases hj with ⟨c, hc, _⟩ | ⟨hj', rfl, hi, _⟩
      · cases hc
      · cases hj'
        split
        · exact .hazardWrite (by assumption)
        · exact .writeCell i _ hi (by simp_all)

/-- A `csrr STATUS` is defined in every state: it hands STATUS back and changes nothing else (R113). -/
theorem hostRead_status (s : State) :
    hostRead .csr (csrOffset .status) 32 s = handBack .csr (csrOffset .status) (statusWord s.status) s := by
  simp [hostRead, readCsr]

/-- What a host move can do: nothing, one access, or one STATUS read of a poll. -/
theorem hostMove_cases (s : State) :
    (s.program = [] ∧ hostMove s = s) ∨
      (∃ a ops, s.program = .access a :: ops ∧ HostEffect a { s with program := ops } (hostMove s)) ∨
      ∃ ops, s.program = .poll :: ops ∧ ∃ p, hostMove s =
        handBack .csr (csrOffset .status) (statusWord s.status) { s with program := p } := by
  unfold hostMove
  split
  · exact .inl ⟨by assumption, rfl⟩
  · exact .inr (.inl ⟨_, _, by assumption, hostAccess_effect _ _⟩)
  · rename_i ops h
    refine .inr (.inr ⟨ops, by assumption, ?_⟩)
    rw [hostRead_status]
    split
    · exact ⟨s.program, rfl⟩
    · exact ⟨ops, rfl⟩

/-- STATUS bit 0 is BUSY (R25). -/
theorem statusWord_busy (st : Status) : (statusWord st).getLsbD 0 = st.busy := by
  obtain ⟨b, d, e, z, c⟩ := st
  simp only [statusWord, BitVec.getLsbD_ofNat, Nat.testBit_zero]
  cases b <;> simp <;> omega

end Sys2Proof.Machine
end

