-- ==== Sys2Proof/Laws/Commands.lean ====
section
/-! SUPPORT. What a command can do (R75 to R77): one inversion lemma for exec, from which the frames and the invariant
follow. -/

namespace Sys2Proof.Machine

open Sys2Proof

/-- Where a command can store: nowhere for BITSTOBYTE and BITSTOU32, the cells of the frame for EMBED (R91), the DST region
for every other command (R27). -/
def storeRegion (i : Instr) (s : State) : Region :=
  match i with
  | .bitsToByte => ⟨0, 0⟩
  | .bitsToU32 => ⟨0, 0⟩
  | .embed => ⟨s.opnd.carAddr.toNat, frameLen s.opnd.srcLen.toNat⟩
  | .byteToBits => regionOf s.opnd .dst
  | .u32ToBits => regionOf s.opnd .dst
  | .extractLsb => regionOf s.opnd .dst
  | .bitsToBytes => regionOf s.opnd .dst
  | .makeBits => regionOf s.opnd .dst
  | .extract => regionOf s.opnd .dst

/-- What a command's outcome can be: an error, or a completion that writes RESULT_LEN bytes from the region's start on,
inside the region and inside the buffer. (EMBED alone has a RESULT_LEN that counts carrier bytes, which it writes all.) -/
inductive OutcomeFrom (s : State) (g : Region) : CmdOutcome × Trail → Prop
  | error (e : CmdError) (t : Trail) (grows : TrailGrows s.trail t) : OutcomeFrom s g (.error e, t)
  | done (r : Nat) (bs : List Byte) (t : Trail) (grows : TrailGrows s.trail t) (fits : bs.length ≤ g.len)
      (inside : bs = [] ∨ g.addr + bs.length ≤ bufSize s) :
      OutcomeFrom s g (.done r bs.length (writeBytes g.addr bs), t)

theorem OutcomeFrom.cast {s : State} {g : Region} {r n : Nat} {bs : List Byte} {t : Trail} (hn : bs.length = n)
    (grows : TrailGrows s.trail t) (fits : n ≤ g.len) (inside : g.addr + n ≤ bufSize s) :
    OutcomeFrom s g (.done r n (writeBytes g.addr bs), t) := by
  subst hn
  exact .done r bs t grows fits (.inr inside)

/-- Checks that stop a command leave an error; else what comes after them counts. -/
theorem OutcomeFrom.afterChecks {s : State} {g : Region} {cs : List (Option CmdError)} {t : Trail}
    {go : Trail → CmdOutcome × Trail} (grows : TrailGrows s.trail t)
    (h : firstError cs = none → OutcomeFrom s g (go t)) : OutcomeFrom s g (afterChecks cs t go) := by
  rcases afterChecks_cases cs t go with ⟨e, _, he⟩ | ⟨hn, he⟩
  · rw [he]; exact .error e t grows
  · rw [he]; exact h hn

theorem outcomeByteToBits_from (s : State) : OutcomeFrom s (regionOf s.opnd .dst) (outcomeByteToBits s) := by
  refine .afterChecks (.refl _) fun h => ?_
  simp only [firstError_eq_none, List.forall_mem_cons, checkRange_none, checkDst_none, regionOf] at h
  exact .cast (by simp) (.refl _) h.2.1 (by simp only [regionOf]; omega)

theorem outcomeU32ToBits_from (s : State) : OutcomeFrom s (regionOf s.opnd .dst) (outcomeU32ToBits s) := by
  refine .afterChecks (.refl _) fun h => ?_
  simp only [firstError_eq_none, List.forall_mem_cons, checkRange_none, checkDst_none, regionOf] at h
  exact .cast (by simp) (.refl _) h.2.1 (by simp only [regionOf]; omega)

theorem outcomeBitsToByte_from (s : State) (g : Region) : OutcomeFrom s g (outcomeBitsToByte s) := by
  refine .afterChecks (.refl _) fun _ => ?_
  rcases readBits_cases s.buf s.opnd.srcAddr.toNat s.opnd.srcLen.toNat s.trail with
    ⟨bits, t', h, _, hg⟩ | ⟨k, v, t', h, hg⟩ <;> rw [h]
  · exact .done _ [] t' hg (Nat.zero_le _) (.inl rfl)
  · exact .error _ t' hg

theorem outcomeBitsToU32_from (s : State) (g : Region) : OutcomeFrom s g (outcomeBitsToU32 s) := by
  refine .afterChecks (.refl _) fun _ => ?_
  rcases readBits_cases s.buf s.opnd.srcAddr.toNat 32 s.trail with ⟨bits, t', h, _, hg⟩ | ⟨k, v, t', h, hg⟩ <;> rw [h]
  · exact .done _ [] t' hg (Nat.zero_le _) (.inl rfl)
  · exact .error _ t' hg

theorem outcomeExtractLsb_from (s : State) : OutcomeFrom s (regionOf s.opnd .dst) (outcomeExtractLsb s) := by
  refine .afterChecks (.refl _) fun h => ?_
  simp only [srcDstChecks, firstError_eq_none, List.forall_mem_cons, checkRange_none, checkDst_none, regionOf] at h
  exact .cast (by simp) (readBytes_grows _ _ _ _) h.2.2.2.1 (by simp only [regionOf]; omega)

theorem outcomeMakeBits_from (s : State) : OutcomeFrom s (regionOf s.opnd .dst) (outcomeMakeBits s) := by
  refine .afterChecks (.refl _) fun h => ?_
  simp only [srcDstChecks, firstError_eq_none, List.forall_mem_cons, checkRange_none, checkDst_none, regionOf] at h
  exact .cast (by simp) (readBytes_grows _ _ _ _) h.2.2.2.1 (by simp only [regionOf]; omega)

theorem outcomeBitsToBytes_from (s : State) : OutcomeFrom s (regionOf s.opnd .dst) (outcomeBitsToBytes s) := by
  refine .afterChecks (.refl _) fun h => ?_
  simp only [srcDstChecks, firstError_eq_none, List.forall_mem_cons, checkRange_none, checkDst_none, regionOf] at h
  rcases readBits_cases s.buf s.opnd.srcAddr.toNat s.opnd.srcLen.toNat s.trail with
    ⟨bits, t', hr, hl, hg⟩ | ⟨k, v, t', hr, hg⟩ <;> rw [hr]
  · exact .cast (by simp [hl]) hg h.2.2.2.1 (by simp only [regionOf]; omega)
  · exact .error _ t' hg

theorem outcomeEmbed_from (s : State) : OutcomeFrom s (storeRegion .embed s) (outcomeEmbed s) := by
  refine .afterChecks (.refl _) fun h => ?_
  simp only [firstError_eq_none, List.forall_mem_cons, checkRange_none, regionOf] at h
  have hf : ¬frameLen s.opnd.srcLen.toNat > s.opnd.carLen.toNat := by
    intro hgt
    have := h.2.2.2.1
    simp [raiseIf, hgt] at this
  exact .cast (by simp [embedFrame, frameLen]) ((readBytes_grows _ _ _ _).trans (readBytes_grows _ _ _ _)) (Nat.le_refl _)
    (by simp only [storeRegion]; omega)

theorem outcomeExtract_from (s : State) : OutcomeFrom s (regionOf s.opnd .dst) (outcomeExtract s) := by
  refine .afterChecks (.refl _) fun h => ?_
  simp only [firstError_eq_none, List.forall_mem_cons, checkRange_none, regionOf] at h
  have hg := readBytes_grows s.buf 32 s.opnd.carAddr.toNat s.trail
  refine .afterChecks hg fun h' => ?_
  simp only [firstError_eq_none, List.forall_mem_cons, checkDst_none] at h'
  exact .cast (by simp) (hg.trans (readBytes_grows _ _ _ _)) h'.2.1 (by simp only [regionOf]; omega)

/-- Every command answers a next state, the end of an engine step with such an outcome (R75). -/
theorem exec_from (i : Instr) (s : State) :
    ∃ r, exec i s = .next (finishCommand r s) ∧ OutcomeFrom s (storeRegion i s) r := by
  cases i
  · exact ⟨_, rfl, outcomeByteToBits_from s⟩
  · exact ⟨_, rfl, outcomeBitsToByte_from s _⟩
  · exact ⟨_, rfl, outcomeU32ToBits_from s⟩
  · exact ⟨_, rfl, outcomeBitsToU32_from s _⟩
  · exact ⟨_, rfl, outcomeExtractLsb_from s⟩
  · exact ⟨_, rfl, outcomeBitsToBytes_from s⟩
  · exact ⟨_, rfl, outcomeMakeBits_from s⟩
  · exact ⟨_, rfl, outcomeEmbed_from s⟩
  · exact ⟨_, rfl, outcomeExtract_from s⟩

/-- What a command can do, if it answers a next state: it ends in an error, with only STATUS, the error data and the trail
changed; or it completes, with RESULT_LEN bytes written from the start of its `storeRegion` on, inside it and inside the
buffer. -/
theorem exec_cases {i : Instr} {s t : State} (h : exec i s = .next t) :
    ∃ t', TrailGrows s.trail t' ∧
      ((∃ e, t = raiseError e { s with trail := t' }) ∨
        ∃ (r : Nat) (bs : List Byte), bs.length ≤ (storeRegion i s).len ∧
          (bs = [] ∨ (storeRegion i s).addr + bs.length ≤ bufSize s) ∧
          t = complete r bs.length (writeBytes (storeRegion i s).addr bs) { s with trail := t' }) := by
  obtain ⟨r, hr, hf⟩ := exec_from i s
  obtain rfl : finishCommand r s = t := by rw [hr] at h; exact Host.Outcome.next.inj h
  cases hf with
  | error e t' hg => exact ⟨t', hg, .inl ⟨e, rfl⟩⟩
  | done r bs t' hg hf hi => exact ⟨t', hg, .inr ⟨r, bs, hf, hi, rfl⟩⟩

end Sys2Proof.Machine
end

