-- ==== Sys2Proof/Laws/PerInstr.lean ====
section
/-! SUPPORT. Facts about every command as syntax, one lemma per constructor: its command word is legal, with OPCODE the
number of the opcode map and RSVD 0 (30_encoding.md R56, R58). -/

namespace Sys2Proof.Laws.LegalWord

open Sys2Proof

/-- The command is well formed, its word passes the word check, and the word is its opcode number. -/
def Statement (i : Instr) : Prop :=
  i.WellFormed ∧ commandWordOk (encode i) = true ∧ (encode i).toNat = (opcode i).toNat

theorem byteToBits : Statement .byteToBits := by unfold Statement; decide
theorem bitsToByte : Statement .bitsToByte := by unfold Statement; decide
theorem u32ToBits : Statement .u32ToBits := by unfold Statement; decide
theorem bitsToU32 : Statement .bitsToU32 := by unfold Statement; decide
theorem extractLsb : Statement .extractLsb := by unfold Statement; decide
theorem bitsToBytes : Statement .bitsToBytes := by unfold Statement; decide
theorem makeBits : Statement .makeBits := by unfold Statement; decide
theorem embed : Statement .embed := by unfold Statement; decide
theorem extract : Statement .extract := by unfold Statement; decide

end Sys2Proof.Laws.LegalWord
end

