-- ==== Sys2Proof/Laws/Step.lean ====
section
/-! SUPPORT. What one step can do (R19, R53): the host moves, the engine ends a command, the reset event, or nothing. -/

namespace Sys2Proof.Machine

open Sys2Proof

/-- A step never stops: there is always a next state (93_implementation_defined.md: no behaviour is `stuck`). -/
theorem step_next (s : State) : ∃ t, step s = .next t := by
  unfold step
  split
  · exact ⟨_, rfl⟩
  · exact ⟨_, rfl⟩
  · split
    · unfold engineStep
      split
      · obtain ⟨r, h, _⟩ := exec_from ‹Instr› (takeTurn s)
        exact ⟨_, h⟩
      · exact ⟨_, rfl⟩
    · exact ⟨_, rfl⟩

/-- What a step can do, if it answers a next state. -/
theorem step_cases {s t : State} (h : step s = .next t) :
    (whoMoves s = .host ∧ t = hostMove (takeTurn s)) ∨
      (s.turns.head? = some .reset ∧ t = resetEvent (takeTurn s)) ∨
      (s.status.busy = true ∧ whoMoves s = .engine ∧
        ((∃ i, decode s.opLatch = .ok i ∧ exec i (takeTurn s) = .next t) ∨
          ((∃ e, decode s.opLatch = .error e) ∧ t = illegalOp (takeTurn s)))) ∨
      (s.status.busy = false ∧ whoMoves s = .engine ∧ t = takeTurn s) := by
  unfold step at h
  split at h
  · exact .inl ⟨by assumption, (Host.Outcome.next.inj h).symm⟩
  · refine .inr (.inl ⟨?_, (Host.Outcome.next.inj h).symm⟩)
    rename_i hw
    unfold whoMoves at hw
    split at hw
    · split at hw <;> cases hw
    · rename_i hs
      simp [hs, hw]
  · split at h
    · unfold engineStep at h
      split at h
      · exact .inr (.inr (.inl ⟨by assumption, by assumption, .inl ⟨_, by assumption, h⟩⟩))
      · exact .inr (.inr (.inl ⟨by assumption, by assumption, .inr ⟨⟨_, by assumption⟩, (Host.Outcome.next.inj h).symm⟩⟩))
    · exact .inr (.inr (.inr ⟨by simp_all, by assumption, (Host.Outcome.next.inj h).symm⟩))

end Sys2Proof.Machine
end

