-- ==== Sys2Proof/Tests/Slice0.lean ====
section
/-! SUPPORT. Tests: the word check, decoding of words written out from the spec's encoding, one or two vectors of
95_test_vectors.md per command, and for every statement with hypotheses a state that meets them. -/

namespace Sys2Proof.Tests

open Sys2Proof Sys2Proof.Machine

/-! ### The word check (30_encoding.md R56, R58) -/

/-- A non-zero reserved field is refused: 0x00000011 (V-S4). -/
theorem test_word_reserved_field_refused : reservedFieldOk 0x00000011 = false ∧ commandWordOk 0x00000011 = false := by decide

/-- The top reserved bit alone is refused: 0x80000008 (V-S5). -/
theorem test_word_top_bit_refused : reservedFieldOk 0x80000008 = false := by decide

/-- The reserved opcodes on both sides of the map are refused: 0x0 and 0xA (V-S2, V-S3). -/
theorem test_word_reserved_opcode_refused :
    opcodeOk 0x00000000 = false ∧ opcodeOk 0x0000000A = false ∧ commandWordOk 0x00000000 = false := by decide

theorem test_word_legal : commandWordOk 0x00000001 = true ∧ commandWordOk 0x00000009 = true := by decide

/-! ### Decoding: OPCODE in bits [3:0], bits [31:4] zero (R56, R58), each word written bit by bit -/

theorem test_decode_byteToBits : decode 0b00000000000000000000000000000001#32 = .ok .byteToBits := by decide
theorem test_decode_bitsToByte : decode 0b00000000000000000000000000000010#32 = .ok .bitsToByte := by decide
theorem test_decode_u32ToBits : decode 0b00000000000000000000000000000011#32 = .ok .u32ToBits := by decide
theorem test_decode_bitsToU32 : decode 0b00000000000000000000000000000100#32 = .ok .bitsToU32 := by decide
theorem test_decode_extractLsb : decode 0b00000000000000000000000000000101#32 = .ok .extractLsb := by decide
theorem test_decode_bitsToBytes : decode 0b00000000000000000000000000000110#32 = .ok .bitsToBytes := by decide
theorem test_decode_makeBits : decode 0b00000000000000000000000000000111#32 = .ok .makeBits := by decide
theorem test_decode_embed : decode 0b00000000000000000000000000001000#32 = .ok .embed := by decide
theorem test_decode_extract : decode 0b00000000000000000000000000001001#32 = .ok .extract := by decide
theorem test_decodeTableWord : decodeTableWord 32 9 = some .extract ∧ decodeTableWord 32 0x11 = none := by decide

/-! ### Small states -/

/-- The bytes from an index on, put into a memory. -/
def put (a : Nat) (bs : List Byte) (m : Memory) : Memory := writeAll m (writeBytes a bs)

/-- An idle state with BUF_SIZE = 256, these operand registers and this buffer. -/
def stateWith (o : OperandRegs) (m : Memory) : State := { State.reset with opnd := o, buf := m }

/-- Operand registers from the three regions. -/
def regions (srcA srcL dstA dstL carA carL : Word) : OperandRegs :=
  { srcAddr := srcA, srcLen := srcL, dstAddr := dstA, dstLen := dstL, carAddr := carA, carLen := carL, value := 0 }

/-- A state with VALUE and a DST region. -/
def valueState (v dstA dstL : Word) (m : Memory) : State := stateWith { regions 0 0 dstA dstL 0 0 with value := v } m

/-- The next state of an outcome, if it is one. -/
def nextOf (o : Host.Outcome State Fault Refusal) : Option State :=
  match o with
  | .next t => some t
  | .fault _ => none
  | .refused _ => none

/-- STATUS, RESULT, RESULT_LEN, ERRINFO_A, ERRINFO_B after a command. -/
def csrsAfter (i : Instr) (s : State) : Option (List Word) :=
  (nextOf (exec i s)).map fun t => [statusWord t.status, t.res.result, t.res.resultLen, t.res.errInfoA, t.res.errInfoB]

/-- The cells from an index on after a command. -/
def cellsAfter (i : Instr) (s : State) (a n : Nat) : Option (List (Option Byte)) :=
  (nextOf (exec i s)).map fun t => (List.range n).map fun j => memRead t.buf (a + j)

/-! ### Vectors of 95_test_vectors.md -/

/-- V-B2, V-B3: VALUE[31:8] is ignored, and bytes past the eighth stay. -/
theorem test_byteToBits_writes_bits :
    cellsAfter .byteToBits (valueState 0x148 0 10 (put 8 [0x77] [])) 0 10 =
      some [some 0, some 1, some 0, some 0, some 1, some 0, some 0, some 0, some 0x77, none] := by decide

/-- V-B5: RANGE(2) for 250 + 8 > 256. -/
theorem test_byteToBits_range : csrsAfter .byteToBits (valueState 0 250 8 []) = some [0x54, 0, 0, 2, 0] := by decide

/-- V-B39: the SRC region may end at BUF_SIZE; a short input is MSB-aligned. -/
theorem test_bitsToByte_short :
    csrsAfter .bitsToByte (stateWith (regions 250 6 0 0 0 0) (put 250 [1, 0, 1, 0, 1, 0] [])) =
      some [0x2, 0xA8, 0, 0, 0] := by decide

/-- V-B12: BADBIT at the first offending element. -/
theorem test_bitsToByte_badBit :
    csrsAfter .bitsToByte (stateWith (regions 0 4 0 0 0 0) (put 0 [1, 5, 0, 7] [])) = some [0x94, 0, 0, 1, 5] := by decide

/-- V-B13: the value 8, most significant bit first. -/
theorem test_u32ToBits_msb_first :
    cellsAfter .u32ToBits (valueState 8 0 32 []) 24 9 =
      some [some 0, some 0, some 0, some 0, some 1, some 0, some 0, some 0, none] := by decide

/-- V-B17: DST_SMALL(32, 31). -/
theorem test_u32ToBits_small : csrsAfter .u32ToBits (valueState 8 0 31 []) = some [0x84, 0, 0, 32, 31] := by decide

/-- V-B20: 28 zeros then 1,0,0,0 is 8. -/
theorem test_bitsToU32_eight :
    csrsAfter .bitsToU32 (stateWith (regions 0 32 0 0 0 0) (put 0 (List.replicate 28 0 ++ [1, 0, 0, 0]) [])) =
      some [0x2, 8, 0, 0, 0] := by decide

/-- V-B22: LENGTH(32, 0). -/
theorem test_bitsToU32_length : csrsAfter .bitsToU32 (stateWith (regions 0 0 0 0 0 0) []) = some [0x74, 0, 0, 32, 0] := by
  decide

/-- V-B23. -/
theorem test_extractLsb_lsbs :
    cellsAfter .extractLsb (stateWith (regions 0 5 8 5 0 0) (put 0 [0x00, 0x01, 0xFE, 0xFF, 0x49] [])) 8 5 =
      some [some 0, some 1, some 0, some 1, some 1] := by decide

/-- V-B28: a DST of length 0 inside SRC overlaps nothing, so the error is DST_SMALL(4, 0). -/
theorem test_extractLsb_empty_dst :
    csrsAfter .extractLsb (stateWith (regions 0 4 2 0 0 0) (put 0 [0, 1, 2, 3] [])) = some [0x84, 0, 0, 4, 0] := by decide

/-- V-B30: nine bits give two bytes, the last padded with trailing zeros. -/
theorem test_bitsToBytes_padding :
    cellsAfter .bitsToBytes (stateWith (regions 0 9 16 2 0 0) (put 0 [1, 0, 0, 0, 0, 0, 0, 1, 1] [])) 16 2 =
      some [some 0x81, some 0x80] := by decide

/-- E5: [1,1,1] gives 0xE0, not 0x07. -/
theorem test_bitsToBytes_short_chunk :
    cellsAfter .bitsToBytes (stateWith (regions 0 3 8 1 0 0) (put 0 [1, 1, 1] [])) 8 2 = some [some 0xE0, none] := by decide

/-- V-B35, first byte. -/
theorem test_makeBits_msb_first :
    cellsAfter .makeBits (stateWith (regions 0 2 16 16 0 0) (put 0 [0xDE, 0xAD] [])) 16 8 =
      some [some 1, some 1, some 0, some 1, some 1, some 1, some 1, some 0] := by decide

/-- V-B37: DST_SMALL(16, 15). -/
theorem test_makeBits_small :
    csrsAfter .makeBits (stateWith (regions 0 2 16 15 0 0) (put 0 [0xDE, 0xAD] [])) = some [0x84, 0, 0, 16, 15] := by decide

/-- E4, as conflict C3 corrects it: carrier byte 28 becomes 1, and bytes 32 to 39 carry 0x48. -/
theorem test_embed_concrete_scenario :
    cellsAfter .embed (stateWith (regions 0 1 0 0 16 40) (put 16 (List.replicate 40 0) (put 0 [0x48] []))) 43 13 =
      some [some 0, some 1, some 0, some 0, some 0, some 0, some 1, some 0, some 0, some 1, some 0, some 0, some 0] := by
  decide

/-- V-E4: one carrier byte short, INSUFFICIENT_CAPACITY(40, 39). -/
theorem test_embed_capacity :
    csrsAfter .embed (stateWith (regions 0 1 0 0 16 39) (put 16 (List.replicate 39 0) (put 0 [0x48] []))) =
      some [0x14, 0, 0, 40, 39] := by decide

/-- V-X4: a header of 3 bits, accepted at n = L - 32, gives 0xE0. -/
theorem test_extract_odd_header :
    cellsAfter .extract (stateWith (regions 0 0 64 1 16 35) (put 16 (List.replicate 30 0 ++ [1, 1, 1, 3, 5]) [])) 64 2 =
      some [some 0xE0, none] := by decide

/-- V-X6: the band of conflict C1 is TRUNCATED_PAYLOAD(8, 1). -/
theorem test_extract_band_of_c1 :
    csrsAfter .extract (stateWith (regions 0 0 64 1 16 33) (put 16 (List.replicate 28 0 ++ [1, 0, 0, 0, 0]) [])) =
      some [0x34, 0, 0, 8, 1] := by decide

/-- V-S5: a reserved word with a legal opcode below it ends in ILLEGAL_OP with the word in ERRINFO_A. -/
theorem test_illegal_word :
    (nextOf (step (State.reset.withFetchWord 32 0x80000008))).map (fun t => [statusWord t.status, t.res.errInfoA]) =
      some [0x44, 0x80000008] := by decide

/-- The first step after reset with a command placed runs it. -/
theorem test_fetch_runs_bitsToByte :
    (nextOf (step (State.reset.withFetchWord 32 2))).map (fun t => (statusWord t.status, t.turns)) = some (0x2, []) := by
  decide

/-- R62: `run M` is a CMD write and a poll. -/
theorem test_runOps : runOps .embed = [.access (.write .csr 0 32 8), .poll] := by decide

/-- The rows spec/opcode_table.json gives: every mnemonic's word passes the word check. -/
theorem test_legal_words : Laws.LegalWord.Statement .embed ∧ Laws.LegalWord.Statement .extract :=
  ⟨Laws.LegalWord.embed, Laws.LegalWord.extract⟩

/-! ### Witnesses: every statement with hypotheses has a state that meets them -/

/-- A busy state with EMBED latched. -/
def busyState : State := issueCommand 8 State.reset

/-- A busy state with the reserved word 0xA latched. -/
def illegalState : State := issueCommand 0xA State.reset

theorem witness_StepRunsTheLatchedCommand :
    busyState.status.busy = true ∧ busyState.turns = [] ∧ decode busyState.opLatch = .ok .embed := by decide

theorem witness_IllegalWordEndsInIllegalOp :
    ¬(1 ≤ illegalState.opLatch.toNat ∧ illegalState.opLatch.toNat ≤ 9) := by decide

theorem witness_StepPerformsTheHostAccess :
    ∃ s : State, s.program = .access (.write .csr 0 32 8) :: [] ∧ (s.turns = [] ∧ s.status.busy = false) :=
  ⟨{ State.reset with program := cmdOps .embed }, by decide⟩

theorem witness_PollRepeatsStatusReads :
    ∃ s : State, s.program = .poll :: [] ∧ s.status.busy = true ∧ s.turns.head? = some .host :=
  ⟨{ busyState with program := [.poll], turns := [.host] }, by decide⟩

theorem witness_ResetEventClearsTheCore : ∃ s : State, s.turns.head? = some .reset ∧ s.status.busy = true :=
  ⟨{ busyState with turns := [.reset] }, by decide⟩

theorem witness_IdleCoreStaysAsItIs :
    State.reset.status.busy = false ∧ State.reset.turns = [] ∧ State.reset.program = [] := by decide

/-- For CmdWriteIssuesTheCommand, ReadOnlyCsrWritesAreIgnored and CsrMapReadsBack: an idle and a busy state. -/
theorem witness_idle_and_busy : State.reset.status.busy = false ∧ busyState.status.busy = true := by decide

theorem witness_OperandCsrsHoldAnyWord :
    State.reset.status.busy = false ∧
      Csr.value ∈ [Csr.srcAddr, .srcLen, .dstAddr, .dstLen, .carAddr, .carLen, .value] := by decide

theorem witness_HostBufferAccesses :
    ∃ s : State, 255 < bufSize s ∧ s.status.busy = false ∧ memRead s.buf 255 = some 7 :=
  ⟨stateWith (regions 0 0 0 0 0 0) (put 255 [7] []), by decide⟩

/-- The busy clause of HostBufferAccesses. -/
theorem witness_HostBufferAccesses_busy : 255 < bufSize busyState ∧ busyState.status.busy = true := by decide

theorem witness_UnspecifiedHostReadIsFree :
    255 < bufSize State.reset ∧ State.reset.status.busy = false ∧ memRead State.reset.buf 255 = none := by decide

/-- V-S12's offset, the first offset past the window, and the first index past BUF_SIZE. -/
theorem witness_IllFormedAccessesAreRefused :
    ¬(8 = 32 ∧ 5 % 4 = 0 ∧ 5 ≤ 0x3C) ∧ ¬(32 = 32 ∧ 0x40 % 4 = 0 ∧ 0x40 ≤ 0x3C) ∧ ¬(8 = 8 ∧ 256 < bufSize State.reset) := by
  decide

/-- CMD, the last offset, and the last index, while BUSY. -/
theorem witness_HazardSetsHazAndNothingElse :
    busyState.status.busy = true ∧ (32 = 32 ∧ 0 % 4 = 0 ∧ 0 ≤ 0x3C) ∧ (32 = 32 ∧ 0x3C % 4 = 0 ∧ 0x3C ≤ 0x3C) ∧
      (8 = 8 ∧ 255 < bufSize busyState) ∧ ¬(Space.csr = .csr ∧ 0x3C = 0x04) := by decide

/-- For HazStaysUntilReset, a state with HAZ that has a next state. -/
theorem witness_HazStaysUntilReset : ∃ s t : State, step s = .next t ∧ s.status.haz = true :=
  ⟨_, (step_next (hazard (.read .buf 0 8) busyState)).choose, (step_next _).choose_spec, rfl⟩

/-- For RecordedFaultIsForGood, a run from a state with a fault. -/
theorem witness_RecordedFaultIsForGood : ∃ (n : Nat) (s t : State), core.run n s = .next t ∧ s.trail.faults ≠ [] :=
  ⟨0, recordFault (.uninitRead 200) State.reset, _, rfl, by decide⟩

/-- For OnlyCmdWriteStartsACommand: the host writes CMD. -/
theorem witness_OnlyCmdWriteStartsACommand :
    ∃ s t : State, step s = .next t ∧ s.status.busy = false ∧ t.status.busy = true :=
  ⟨{ State.reset with program := cmdOps .embed }, _, rfl, by decide, by decide⟩

/-- For OutcomeStandsUntilCmdOrReset: an idle state in error, the host reading a register. -/
theorem witness_OutcomeStandsUntilCmdOrReset :
    ∃ s t : State, step s = .next t ∧ s.status.busy = false ∧ t.status.busy = false ∧ s.turns.head? ≠ some .reset ∧
      s.status.err = true :=
  ⟨{ illegalOp illegalState with program := [csrr .errInfoA] }, _, rfl, by decide, by decide, by decide, by decide⟩

/-- For BusyComesToAnEnd: a busy state with host turns given out. -/
theorem witness_BusyComesToAnEnd : ∃ s : State, s.status.busy = true ∧ s.turns = [.host, .host] :=
  ⟨{ busyState with turns := [.host, .host] }, by decide⟩

/-- For StepKeepsInvariant: the state after reset has the invariant, and a next state. -/
theorem witness_StepKeepsInvariant : ∃ s t : State, s.Inv ∧ step s = .next t := by
  refine ⟨State.reset, State.reset, ?_, rfl⟩
  exact ⟨.nil, by simp [State.reset], ⟨by decide, by decide, by decide, by decide⟩, fun _ => ⟨rfl, rfl⟩, fun _ => ⟨rfl, rfl⟩,
    fun h => Bool.noConfusion h⟩

/-- For CommandsKeepOtherRegisters, DstCommandsWriteOnlyDst, ResultCommandsStoreNothing and EmbedWritesOnlyTheFramesCells:
every command has a next state in every state. -/
theorem witness_frames (i : Instr) (s : State) : ∃ t, exec i s = .next t := by
  obtain ⟨r, h, _⟩ := exec_from i s
  exact ⟨_, h⟩

theorem witness_DstCommandsWriteOnlyDst :
    Instr.extract ∈ [Instr.byteToBits, .u32ToBits, .extractLsb, .bitsToBytes, .makeBits, .extract] := by decide

theorem witness_ResultCommandsStoreNothing : Instr.bitsToByte ∈ [Instr.bitsToByte, .bitsToU32] := by decide

/-- For ErrorsArePrecise: BYTETOBITS with no room. -/
theorem witness_ErrorsArePrecise : ∃ t, exec .byteToBits State.reset = .next t ∧ t.status.err = true := ⟨_, rfl, by decide⟩

/-- For OutcomeDependsOnlyOnInputs: two states that differ in unused registers, and in cells outside what MAKEBITS reads. -/
theorem witness_OutcomeDependsOnlyOnInputs :
    ∃ s s' : State, usedOperands .makeBits s.opnd = usedOperands .makeBits s'.opnd ∧ s.bufLast = s'.bufLast ∧
      s.trail.draws = s'.trail.draws ∧ (∀ a, MayRead .makeBits s.opnd a → memRead s.buf a = memRead s'.buf a) ∧ s ≠ s' := by
  refine ⟨stateWith (regions 0 1 16 8 0 0) (put 0 [5] []), stateWith (regions 0 1 16 8 7 7) (put 0 [5, 6] []), by decide, rfl,
    rfl, ?_, by decide⟩
  intro a h
  have ha : a = 0 := by
    have : 0 ≤ a ∧ a < 0 + 1 := h
    omega
  subst ha
  rfl

/-! The command statements: for each clause a state that meets its hypotheses, at a boundary of the clause where it has
one. -/

theorem witness_ByteToBitsWritesTheBits :
    (∃ s : State, dstOk s ∧ 8 ≤ s.opnd.dstLen.toNat) ∧ (∃ s : State, ¬dstOk s) ∧
      ∃ s : State, dstOk s ∧ s.opnd.dstLen.toNat < 8 :=
  ⟨⟨valueState 1 248 8 [], by decide⟩, ⟨valueState 1 249 8 [], by decide⟩, ⟨valueState 1 249 7 [], by decide⟩⟩

theorem witness_U32ToBitsWritesTheBits :
    (∃ s : State, dstOk s ∧ 32 ≤ s.opnd.dstLen.toNat) ∧ (∃ s : State, ¬dstOk s) ∧
      ∃ s : State, dstOk s ∧ s.opnd.dstLen.toNat < 32 :=
  ⟨⟨valueState 1 224 32 [], by decide⟩, ⟨valueState 1 225 32 [], by decide⟩, ⟨valueState 1 225 31 [], by decide⟩⟩

theorem witness_BitsToByteGivesTheByte :
    (∃ (s : State) (bits : List Bit), HoldsBits s.buf s.opnd.srcAddr.toNat bits ∧ bits.length = s.opnd.srcLen.toNat ∧
        srcOk s ∧ s.opnd.srcLen.toNat ≤ 8) ∧
      (∃ s : State, ¬srcOk s) ∧ (∃ s : State, srcOk s ∧ 8 < s.opnd.srcLen.toNat) ∧
      ∃ (s : State) (pre : List Bit) (v : Byte), HoldsBits s.buf s.opnd.srcAddr.toNat pre ∧
        memRead s.buf (s.opnd.srcAddr.toNat + pre.length) = some v ∧ 1 < v.toNat ∧ pre.length < s.opnd.srcLen.toNat ∧
        srcOk s ∧ s.opnd.srcLen.toNat ≤ 8 := by
  refine ⟨⟨stateWith (regions 248 8 0 0 0 0) (put 248 [1, 0, 1, 0, 1, 0, 1, 1] []),
      [true, false, true, false, true, false, true, true], ?_, by decide⟩,
    ⟨stateWith (regions 250 7 0 0 0 0) [], by decide⟩, ⟨stateWith (regions 0 9 0 0 0 0) [], by decide⟩,
    ⟨stateWith (regions 0 4 0 0 0 0) (put 0 [0, 0, 0, 2] []), [false, false, false], 2, ?_, by decide⟩⟩ <;>
  · unfold HoldsBits HoldsBytes
    decide

theorem witness_BitsToU32GivesTheValue :
    (∃ (s : State) (bits : List Bit), HoldsBits s.buf s.opnd.srcAddr.toNat bits ∧ bits.length = 32 ∧ srcOk s ∧
        s.opnd.srcLen.toNat = 32) ∧
      (∃ s : State, ¬srcOk s) ∧ (∃ s : State, srcOk s ∧ s.opnd.srcLen.toNat ≠ 32) ∧
      ∃ (s : State) (pre : List Bit) (v : Byte), HoldsBits s.buf s.opnd.srcAddr.toNat pre ∧
        memRead s.buf (s.opnd.srcAddr.toNat + pre.length) = some v ∧ 1 < v.toNat ∧ pre.length < 32 ∧ srcOk s ∧
        s.opnd.srcLen.toNat = 32 := by
  refine ⟨⟨stateWith (regions 224 32 0 0 0 0) (put 224 (List.replicate 32 1) []), List.replicate 32 true, ?_, by decide⟩,
    ⟨stateWith (regions 225 32 0 0 0 0) [], by decide⟩, ⟨stateWith (regions 0 31 0 0 0 0) [], by decide⟩,
    ⟨stateWith (regions 0 32 0 0 0 0) (put 0 [3] []), [], 3, ?_, by decide⟩⟩ <;>
  · unfold HoldsBits HoldsBytes
    decide

/-- The regions of a state share no index, by the overlap test. -/
theorem shareNone_of_test {r q : Region} (h : overlaps r q = false) : ShareNone r q := overlaps_eq_false.1 h

/-- The regions of a state share an index, by the overlap test. -/
theorem not_shareNone_of_test {r q : Region} (h : overlaps r q = true) : ¬ShareNone r q := fun hn => by
  rw [overlaps_eq_false.2 hn] at h
  cases h

theorem witness_ExtractLsbWritesTheLsbs :
    (∃ (s : State) (cs : List Byte), HoldsBytes s.buf s.opnd.srcAddr.toNat cs ∧ cs.length = s.opnd.srcLen.toNat ∧
        ShareNone (regionOf s.opnd .src) (regionOf s.opnd .dst) ∧ srcOk s ∧ dstOk s ∧ cs.length ≤ s.opnd.dstLen.toNat) ∧
      (∃ s : State, ¬srcOk s) ∧ (∃ s : State, srcOk s ∧ ¬dstOk s) ∧
      (∃ s : State, srcOk s ∧ dstOk s ∧ ¬ShareNone (regionOf s.opnd .src) (regionOf s.opnd .dst)) ∧
      ∃ s : State, srcOk s ∧ dstOk s ∧ ShareNone (regionOf s.opnd .src) (regionOf s.opnd .dst) ∧
        s.opnd.dstLen.toNat < s.opnd.srcLen.toNat := by
  refine ⟨⟨stateWith (regions 0 4 4 4 0 0) (put 0 [0, 1, 254, 255] []), [0, 1, 254, 255], ?_, by decide,
      shareNone_of_test (by decide), by decide⟩,
    ⟨stateWith (regions 253 4 0 4 0 0) [], by decide⟩, ⟨stateWith (regions 0 4 253 4 0 0) [], by decide⟩,
    ⟨stateWith (regions 0 4 3 4 0 0) [], by decide, by decide, not_shareNone_of_test (by decide)⟩,
    ⟨stateWith (regions 0 4 2 0 0 0) [], by decide, by decide, shareNone_of_test (by decide), by decide⟩⟩
  unfold HoldsBytes
  decide

theorem witness_BitsToBytesWritesTheBytes :
    (∃ (s : State) (bits : List Bit), HoldsBits s.buf s.opnd.srcAddr.toNat bits ∧ bits.length = s.opnd.srcLen.toNat ∧
        ShareNone (regionOf s.opnd .src) (regionOf s.opnd .dst) ∧ srcOk s ∧ dstOk s ∧
        ceilDiv bits.length 8 ≤ s.opnd.dstLen.toNat) ∧
      (∃ s : State, ¬srcOk s) ∧ (∃ s : State, srcOk s ∧ ¬dstOk s) ∧
      (∃ s : State, srcOk s ∧ dstOk s ∧ ¬ShareNone (regionOf s.opnd .src) (regionOf s.opnd .dst)) ∧
      (∃ s : State, srcOk s ∧ dstOk s ∧ ShareNone (regionOf s.opnd .src) (regionOf s.opnd .dst) ∧
        s.opnd.dstLen.toNat < ceilDiv s.opnd.srcLen.toNat 8) ∧
      ∃ (s : State) (pre : List Bit) (v : Byte), HoldsBits s.buf s.opnd.srcAddr.toNat pre ∧
        ShareNone (regionOf s.opnd .src) (regionOf s.opnd .dst) ∧
        memRead s.buf (s.opnd.srcAddr.toNat + pre.length) = some v ∧ 1 < v.toNat ∧ pre.length < s.opnd.srcLen.toNat ∧
        srcOk s ∧ dstOk s ∧ ceilDiv s.opnd.srcLen.toNat 8 ≤ s.opnd.dstLen.toNat := by
  refine ⟨⟨stateWith (regions 0 9 9 2 0 0) (put 0 [1, 0, 0, 0, 0, 0, 0, 1, 1] []),
      [true, false, false, false, false, false, false, true, true], ?_, by decide, shareNone_of_test (by decide), by decide⟩,
    ⟨stateWith (regions 248 9 0 2 0 0) [], by decide⟩, ⟨stateWith (regions 0 9 255 2 0 0) [], by decide⟩,
    ⟨stateWith (regions 0 9 8 2 0 0) [], by decide, by decide, not_shareNone_of_test (by decide)⟩,
    ⟨stateWith (regions 0 9 16 1 0 0) [], by decide, by decide, shareNone_of_test (by decide), by decide⟩,
    ⟨stateWith (regions 0 9 16 2 0 0) (put 0 [1, 0, 255] []), [true, false], 255, ?_, shareNone_of_test (by decide),
      by decide⟩⟩ <;>
  · unfold HoldsBits HoldsBytes
    decide

theorem witness_MakeBitsWritesTheBits :
    (∃ (s : State) (bs : List Byte), HoldsBytes s.buf s.opnd.srcAddr.toNat bs ∧ bs.length = s.opnd.srcLen.toNat ∧
        ShareNone (regionOf s.opnd .src) (regionOf s.opnd .dst) ∧ srcOk s ∧ dstOk s ∧
        8 * bs.length ≤ s.opnd.dstLen.toNat) ∧
      (∃ s : State, ¬srcOk s) ∧ (∃ s : State, srcOk s ∧ ¬dstOk s) ∧
      (∃ s : State, srcOk s ∧ dstOk s ∧ ¬ShareNone (regionOf s.opnd .src) (regionOf s.opnd .dst)) ∧
      ∃ s : State, srcOk s ∧ dstOk s ∧ ShareNone (regionOf s.opnd .src) (regionOf s.opnd .dst) ∧
        s.opnd.dstLen.toNat < 8 * s.opnd.srcLen.toNat := by
  refine ⟨⟨stateWith (regions 0 2 16 16 0 0) (put 0 [0xDE, 0xAD] []), [0xDE, 0xAD], ?_, by decide,
      shareNone_of_test (by decide), by decide⟩,
    ⟨stateWith (regions 255 2 0 16 0 0) [], by decide⟩, ⟨stateWith (regions 0 2 241 16 0 0) [], by decide⟩,
    ⟨stateWith (regions 0 2 1 16 0 0) [], by decide, by decide, not_shareNone_of_test (by decide)⟩,
    ⟨stateWith (regions 0 2 16 15 0 0) [], by decide, by decide, shareNone_of_test (by decide), by decide⟩⟩
  unfold HoldsBytes
  decide

/-- The state of E4: the payload [0x48] and 40 zero carrier bytes. -/
def embedState : State := stateWith (regions 0 1 64 1 16 40) (put 16 (List.replicate 40 0) (put 0 [0x48] []))

theorem embedState_payload : HoldsBytes embedState.buf embedState.opnd.srcAddr.toNat [0x48] := by
  unfold HoldsBytes
  decide

theorem embedState_carrier : HoldsBytes embedState.buf embedState.opnd.carAddr.toNat (List.replicate 40 0) := by
  unfold HoldsBytes
  decide

theorem witness_EmbedWritesTheFrame :
    (∃ (s : State) (p cs : List Byte), HoldsBytes s.buf s.opnd.srcAddr.toNat p ∧
        HoldsBytes s.buf s.opnd.carAddr.toNat cs ∧ ShareNone (regionOf s.opnd .src) (regionOf s.opnd .car) ∧
        p.length = s.opnd.srcLen.toNat ∧ cs.length = 32 + 8 * p.length ∧ srcOk s ∧ carOk s ∧
        32 + 8 * p.length ≤ s.opnd.carLen.toNat) ∧
      (∃ s : State, ¬srcOk s) ∧ (∃ s : State, srcOk s ∧ ¬carOk s) ∧
      (∃ s : State, srcOk s ∧ carOk s ∧ ¬ShareNone (regionOf s.opnd .src) (regionOf s.opnd .car)) ∧
      ∃ s : State, srcOk s ∧ carOk s ∧ ShareNone (regionOf s.opnd .src) (regionOf s.opnd .car) ∧
        s.opnd.carLen.toNat < 32 + 8 * s.opnd.srcLen.toNat :=
  ⟨⟨embedState, [0x48], List.replicate 40 0, embedState_payload, embedState_carrier, shareNone_of_test (by decide),
      by decide⟩,
    ⟨stateWith (regions 250 7 0 0 0 0) [], by decide⟩, ⟨stateWith (regions 0 1 0 0 217 40) [], by decide⟩,
    ⟨stateWith (regions 0 4 0 0 2 40) [], by decide, by decide, not_shareNone_of_test (by decide)⟩,
    ⟨stateWith (regions 0 1 0 0 16 39) [], by decide, by decide, shareNone_of_test (by decide), by decide⟩⟩

theorem witness_EmbedLeavesTheWireFormat :
    ∃ (s t : State) (p cs : List Byte), HoldsBytes s.buf s.opnd.srcAddr.toNat p ∧
      HoldsBytes s.buf s.opnd.carAddr.toNat cs ∧ p.length = s.opnd.srcLen.toNat ∧ cs.length = 32 + 8 * p.length ∧
      exec .embed s = .next t ∧ t.status.done = true :=
  ⟨embedState, _, [0x48], List.replicate 40 0, embedState_payload, embedState_carrier, by decide, by decide, rfl, by decide⟩

theorem witness_EmbedOfEmptyPayload :
    (∃ (s : State) (cs : List Byte), HoldsBytes s.buf s.opnd.carAddr.toNat cs ∧ s.opnd.srcLen = 0 ∧ srcOk s ∧ carOk s ∧
        cs.length = 32 ∧ 32 ≤ s.opnd.carLen.toNat) ∧
      ∃ s : State, s.opnd.srcLen = 0 ∧ srcOk s ∧ carOk s ∧ s.opnd.carLen.toNat < 32 := by
  refine ⟨⟨stateWith (regions 0 0 0 0 16 32) (put 16 (List.replicate 32 7) []), List.replicate 32 7, ?_, by decide⟩,
    ⟨stateWith (regions 0 0 0 0 16 31) [], by decide⟩⟩
  unfold HoldsBytes
  decide

/-- A carrier with the header `n` = 3 in its LSBs and three more bytes (V-X4). -/
def extractState (carLen dstLen : Word) : State :=
  stateWith (regions 0 0 64 dstLen 16 carLen) (put 16 (List.replicate 30 0 ++ [1, 1, 1, 3, 5]) [])

theorem extractState_header (c d : Word) :
    HoldsBytes (extractState c d).buf (extractState c d).opnd.carAddr.toNat (List.replicate 30 0 ++ [1, 1]) := by
  unfold HoldsBytes
  show ∀ j, ∀ h : j < 32, memRead (put 16 (List.replicate 30 0 ++ [1, 1, 1, 3, 5]) []) (16 + j) = _
  decide

theorem witness_ExtractRecoversThePayload :
    (∃ (s : State) (hs cs : List Byte), HoldsBytes s.buf s.opnd.carAddr.toNat hs ∧
        HoldsBytes s.buf (s.opnd.carAddr.toNat + 32) cs ∧ ShareNone (regionOf s.opnd .car) (regionOf s.opnd .dst) ∧
        hs.length = 32 ∧ cs.length = accumulate (lsbs hs) ∧ dstOk s ∧ carOk s ∧ 32 ≤ s.opnd.carLen.toNat ∧
        cs.length ≤ s.opnd.carLen.toNat - 32 ∧ ceilDiv cs.length 8 ≤ s.opnd.dstLen.toNat) ∧
      (∃ s : State, ¬dstOk s) ∧ (∃ s : State, dstOk s ∧ ¬carOk s) ∧
      (∃ s : State, dstOk s ∧ carOk s ∧ ¬ShareNone (regionOf s.opnd .car) (regionOf s.opnd .dst)) ∧
      (∃ s : State, dstOk s ∧ carOk s ∧ ShareNone (regionOf s.opnd .car) (regionOf s.opnd .dst) ∧
        s.opnd.carLen.toNat < 32) ∧
      (∃ (s : State) (hs : List Byte), HoldsBytes s.buf s.opnd.carAddr.toNat hs ∧
        ShareNone (regionOf s.opnd .car) (regionOf s.opnd .dst) ∧ hs.length = 32 ∧ dstOk s ∧ carOk s ∧
        32 ≤ s.opnd.carLen.toNat ∧ s.opnd.carLen.toNat - 32 < accumulate (lsbs hs)) ∧
      ∃ (s : State) (hs : List Byte), HoldsBytes s.buf s.opnd.carAddr.toNat hs ∧
        ShareNone (regionOf s.opnd .car) (regionOf s.opnd .dst) ∧ hs.length = 32 ∧ dstOk s ∧ carOk s ∧
        32 ≤ s.opnd.carLen.toNat ∧ accumulate (lsbs hs) ≤ s.opnd.carLen.toNat - 32 ∧
        s.opnd.dstLen.toNat < ceilDiv (accumulate (lsbs hs)) 8 := by
  refine ⟨⟨extractState 35 1, _, [1, 3, 5], extractState_header 35 1, ?_, shareNone_of_test (by decide), by decide⟩,
    ⟨stateWith (regions 0 0 250 7 0 0) [], by decide⟩, ⟨stateWith (regions 0 0 0 0 250 7) [], by decide⟩,
    ⟨stateWith (regions 0 0 20 4 16 40) [], by decide, by decide, not_shareNone_of_test (by decide)⟩,
    ⟨stateWith (regions 0 0 64 4 16 31) [], by decide, by decide, shareNone_of_test (by decide), by decide⟩,
    ⟨extractState 34 1, _, extractState_header 34 1, shareNone_of_test (by decide), by decide⟩,
    ⟨extractState 35 0, _, extractState_header 35 0, shareNone_of_test (by decide), by decide⟩⟩
  unfold HoldsBytes
  decide

theorem witness_EmbedThenExtractGivesThePayload :
    ∃ (s t u : State) (p cs : List Byte), HoldsBytes s.buf s.opnd.srcAddr.toNat p ∧
      HoldsBytes s.buf s.opnd.carAddr.toNat cs ∧ p.length = s.opnd.srcLen.toNat ∧ cs.length = s.opnd.carLen.toNat ∧
      exec .embed s = .next t ∧ t.status.done = true ∧ u.buf = t.buf ∧ u.bufLast = t.bufLast ∧
      u.opnd.carAddr = s.opnd.carAddr ∧ u.opnd.carLen = s.opnd.carLen ∧ dstOk u ∧
      ShareNone (regionOf u.opnd .car) (regionOf u.opnd .dst) ∧ p.length ≤ u.opnd.dstLen.toNat :=
  ⟨embedState, finishCommand (outcomeEmbed embedState) embedState, finishCommand (outcomeEmbed embedState) embedState, [0x48],
    List.replicate 40 0, embedState_payload, embedState_carrier, by decide, by decide, rfl, by decide, rfl, rfl, by decide,
    by decide, by decide, shareNone_of_test (by decide), by decide⟩

/-- For UnspecifiedBytesAreFree: regions of the right size over cells that nothing wrote. -/
theorem witness_UnspecifiedBytesAreFree :
    (∃ s : State, srcOk s ∧ dstOk s ∧ ShareNone (regionOf s.opnd .src) (regionOf s.opnd .dst) ∧
        8 * s.opnd.srcLen.toNat ≤ s.opnd.dstLen.toNat ∧ memRead s.buf s.opnd.srcAddr.toNat = none) ∧
      ∃ s : State, srcOk s ∧ carOk s ∧ ShareNone (regionOf s.opnd .src) (regionOf s.opnd .car) ∧
        32 + 8 * s.opnd.srcLen.toNat ≤ s.opnd.carLen.toNat ∧ memRead s.buf s.opnd.carAddr.toNat = none :=
  ⟨⟨stateWith (regions 0 1 16 8 0 0) [], by decide, by decide, shareNone_of_test (by decide), by decide⟩,
    ⟨stateWith (regions 0 1 0 0 16 40) [], by decide, by decide, shareNone_of_test (by decide), by decide⟩⟩

/-- For UnspecifiedBitsAreRecorded and BitReadersRunOnUnspecifiedCells: the three bit readers, and EXTRACT, over an
unspecified cell. -/
theorem witness_UnspecifiedBitsAreRecorded :
    (∃ (s : State) (pre : List Bit), HoldsBits s.buf s.opnd.srcAddr.toNat pre ∧
        ShareNone (regionOf s.opnd .src) (regionOf s.opnd .dst) ∧ s.opnd.srcLen.toNat ≤ 8 ∧ srcOk s ∧ dstOk s ∧
        ceilDiv s.opnd.srcLen.toNat 8 ≤ s.opnd.dstLen.toNat ∧ pre.length < s.opnd.srcLen.toNat ∧
        memRead s.buf (s.opnd.srcAddr.toNat + pre.length) = none) ∧
      (∃ s : State, s.opnd.srcLen.toNat = 32 ∧ srcOk s ∧ memRead s.buf s.opnd.srcAddr.toNat = none) ∧
      ∃ s : State, dstOk s ∧ carOk s ∧ ShareNone (regionOf s.opnd .car) (regionOf s.opnd .dst) ∧
        32 ≤ s.opnd.carLen.toNat ∧ memRead s.buf (s.opnd.carAddr.toNat + 31) = none := by
  refine ⟨⟨stateWith (regions 0 8 16 1 0 0) (put 0 [1] []), [true], ?_, shareNone_of_test (by decide), by decide⟩,
    ⟨stateWith (regions 0 32 0 0 0 0) [], by decide⟩,
    ⟨stateWith (regions 0 0 64 1 16 40) [], by decide, by decide, shareNone_of_test (by decide), by decide⟩⟩
  unfold HoldsBits HoldsBytes
  decide

/-- A carrier of CAR_LEN 35 with the header `n` = 3 in its LSBs and only the first of its payload bytes written. -/
def partCarrierState : State :=
  stateWith (regions 0 0 64 1 16 35) (put 16 (List.replicate 30 0 ++ [1, 1, 7]) [])

/-- For the payload clause of UnspecifiedBitsAreRecorded, at the last payload cell: n - 1 = 2, and n = CAR_LEN - 32. -/
theorem witness_UnspecifiedBitsAreRecorded_payload :
    ∃ (s : State) (hs : List Byte), HoldsBytes s.buf s.opnd.carAddr.toNat hs ∧
      ShareNone (regionOf s.opnd .car) (regionOf s.opnd .dst) ∧ hs.length = 32 ∧ dstOk s ∧ carOk s ∧
      32 ≤ s.opnd.carLen.toNat ∧ accumulate (lsbs hs) ≤ s.opnd.carLen.toNat - 32 ∧
      ceilDiv (accumulate (lsbs hs)) 8 ≤ s.opnd.dstLen.toNat ∧ 2 < accumulate (lsbs hs) ∧
      memRead s.buf (s.opnd.carAddr.toNat + 32 + 2) = none := by
  refine ⟨partCarrierState, List.replicate 30 0 ++ [1, 1], ?_, shareNone_of_test (by decide), by decide⟩
  unfold HoldsBytes
  show ∀ j, ∀ h : j < 32, memRead (put 16 (List.replicate 30 0 ++ [1, 1, 7]) []) (16 + j) = _
  decide

/-- For ExtractRunsOnUnspecifiedCells: the state above, with a specified header and an unspecified payload cell. -/
theorem witness_ExtractRunsOnUnspecifiedCells :
    ShareNone (regionOf partCarrierState.opnd .car) (regionOf partCarrierState.opnd .dst) ∧ dstOk partCarrierState ∧
      carOk partCarrierState ∧ 32 ≤ partCarrierState.opnd.carLen.toNat ∧ memRead partCarrierState.buf 49 = none :=
  ⟨shareNone_of_test (by decide), by decide⟩

/-- V-X4's payload cells left unspecified but the first: EXTRACT completes with RESULT 3 and records the two of them. -/
theorem test_extract_unspecified_payload :
    (nextOf (exec .extract partCarrierState)).map (fun t => (t.status.done, t.res.result, t.trail.faults)) =
      some (true, 3, [.uninitRead 49, .uninitRead 50]) := by decide

/-- For FrameIsHeaderThenPayload, AccumulateIsTheWeightedSum, UnpackByteIsTheWeightedSum (both bounds) and UnitsRoundTrip. -/
theorem witness_unit_bounds :
    8 * ([0x48] : List Byte).length ≤ 2 ^ 32 - 1 ∧ (packWord 8).length = 32 ∧ ([true, true, true] : List Bit).length ≤ 8 ∧
      (packByte 0xDE).length = 8 ∧ srcOk State.reset ∧
      (packBytes [0xDE, 0xAD]).length % 8 = 0 := by decide

end Sys2Proof.Tests
end

section
/-! SUPPORT. The state family (10_state.md): one inversion of a whole step down to what it does to the CORE, what every step
keeps, and the laws of the CSR window from which its statements follow. -/

namespace Sys2Proof.Machine

open Sys2Proof

/-! ### What a whole step can do (R19, R53) -/

/-- The host moves next: its turn was given out, or no turn is and the CORE is idle (log 6). -/
theorem whoMoves_eq_host {s : State} :
    whoMoves s = .host ↔ (s.turns = [] ∧ s.status.busy = false) ∨ s.turns.head? = some .host := by
  cases h : s.turns <;> simp [whoMoves, h]

/-- A step in the terms of the operations that change the state: nothing but the turn is used up, one host access or a poll's
STATUS read, the reset event, or the end of a command (a legal word's or an ILLEGAL one's) in an error or in a completion. -/
inductive StepEffect (s : State) : State → Prop
  | nothing : StepEffect s (takeTurn s)
  | access {a : Access} {ops : List HostOp} {t : State} (next : s.program = .access a :: ops)
      (effect : HostEffect a { takeTurn s with program := ops } t) : StepEffect s t
  | poll (p : List HostOp) :
      StepEffect s (handBack .csr (csrOffset .status) (statusWord s.status) { takeTurn s with program := p })
  | reset (turn : s.turns.head? = some .reset) : StepEffect s (resetEvent (takeTurn s))
  | failed (e : CmdError) (t' : Trail) (busy : s.status.busy = true) (grows : TrailGrows s.trail t') :
      StepEffect s (raiseError e { takeTurn s with trail := t' })
  | completed (r a : Nat) (bs : List Byte) (t' : Trail) (busy : s.status.busy = true) (grows : TrailGrows s.trail t')
      (inside : bs = [] ∨ a + bs.length ≤ bufSize s) :
      StepEffect s (complete r bs.length (writeBytes a bs) { takeTurn s with trail := t' })

theorem hostMove_stepEffect (s : State) : StepEffect s (hostMove (takeTurn s)) := by
  rcases hostMove_cases (takeTurn s) with ⟨_, h⟩ | ⟨a, ops, next, effect⟩ | ⟨ops, _, p, h⟩
  · rw [h]; exact .nothing
  · exact .access next effect
  · rw [h]; exact .poll p

theorem exec_stepEffect {i : Instr} {s t : State} (busy : s.status.busy = true) (h : exec i (takeTurn s) = .next t) :
    StepEffect s t := by
  obtain ⟨t', grows, ⟨e, rfl⟩ | ⟨r, bs, _, inside, rfl⟩⟩ := exec_cases h
  · exact .failed e t' busy grows
  · exact .completed r _ bs t' busy grows inside

theorem step_effect {s t : State} (h : step s = .next t) : StepEffect s t := by
  rcases step_cases h with ⟨_, rfl⟩ | ⟨turn, rfl⟩ | ⟨busy, _, ⟨i, _, hx⟩ | ⟨_, rfl⟩⟩ | ⟨_, _, rfl⟩
  · exact hostMove_stepEffect s
  · exact .reset turn
  · exact exec_stepEffect busy hx
  · exact .failed _ s.trail busy (.refl _)
  · exact .nothing

/-! ### The fault list only grows (R36) -/

theorem HostEffect.trailGrows {a : Access} {s t : State} (h : HostEffect a s t) : TrailGrows s.trail t.trail := by
  cases h with
  | refused sp i w => exact noteFault_grows _ _
  | hazardWrite _ => exact noteFault_grows _ _
  | hazardRead _ sp i v => exact (noteDraw_grows _).trans (noteFault_grows _ _)
  | readCell i _ => exact readCell_grows _ _ _
  | read | issue | setOperands | writeCell => exact .refl _

theorem StepEffect.trailGrows {s t : State} (h : StepEffect s t) : TrailGrows s.trail t.trail := by
  cases h with
  | access _ effect => exact effect.trailGrows
  | failed _ _ _ grows => exact grows
  | completed _ _ _ _ _ grows _ => exact grows
  | nothing | poll | reset => exact .refl _

/-- A run of one step more goes on from the next state; no step stops it (log 12). -/
theorem core_run_succ {s u : State} (h : step s = .next u) (n : Nat) : core.run (n + 1) s = core.run n u := by
  have hs : core.step s = .next u := h
  simp only [Host.Core.run, hs]

/-- Over a run of any length the fault list only grows. -/
theorem core_run_trailGrows {n : Nat} {s t : State} (h : core.run n s = .next t) : TrailGrows s.trail t.trail := by
  induction n generalizing s with
  | zero =>
    obtain rfl : s = t := Host.Outcome.next.inj h
    exact .refl _
  | succ n ih =>
    obtain ⟨u, hu⟩ := step_next s
    rw [core_run_succ hu] at h
    exact (step_effect hu).trailGrows.trans (ih h)

/-- A state with a recorded fault is not final, and has no observation (R36, R117). -/
theorem not_final_of_faults {t : State} (h : t.trail.faults ≠ []) : ¬Final t ∧ observe t = none := by
  have hf : ¬Final t := fun hf => h hf.2.2
  exact ⟨hf, if_neg hf⟩

/-! ### HAZ and BUSY over a step (R24, R25) -/

/-- No host access clears HAZ (R25). -/
theorem HostEffect.haz {a : Access} {s t : State} (h : HostEffect a s t) (hz : s.status.haz = true) :
    t.status.haz = true := by
  cases h with
  | hazardWrite | hazardRead => rfl
  | refused | read | readCell | issue | setOperands | writeCell => exact hz

/-- A host access that leaves BUSY set where it was clear is a CMD write, and latches its word (R24). -/
theorem HostEffect.issued {a : Access} {s t : State} (h : HostEffect a s t) (idle : s.status.busy = false)
    (busy : t.status.busy = true) : ∃ w, a = .write .csr 0x00 32 w ∧ t.opLatch = w := by
  cases h with
  | issue w _ isCmd => exact ⟨w, isCmd, rfl⟩
  | refused | hazardWrite | hazardRead | read | readCell | setOperands | writeCell =>
    exact absurd (idle.symm.trans busy) Bool.false_ne_true

/-! ### The invariant (R25, R30 to R32, R40, R100, R113) -/

theorem legal_reset : Status.reset.Legal := ⟨by simp [Status.reset], by simp [Status.reset], by decide, by decide⟩

theorem legal_statusIssued (st : Status) : (statusIssued st).Legal := ⟨by simp, by simp, by simp, by simp⟩

theorem legal_statusDone (st : Status) : (statusDone st).Legal := ⟨by simp, by simp, by simp, by simp⟩

/-- An error code is one of 1 to 9 (R100). -/
theorem errCodeBits_range (c : ErrCode) : errCodeBits c ≠ 0 ∧ (errCodeBits c).toNat ≤ 9 := by cases c <;> decide

theorem legal_statusError (c : ErrCode) (st : Status) : (statusError c st).Legal where
  busyAlone := by simp
  doneAlone := by simp
  errCode := by simpa using (errCodeBits_range c).1
  errCodeLe := (errCodeBits_range c).2

theorem Status.Legal.statusHazard {st : Status} (h : st.Legal) : (statusHazard st).Legal :=
  ⟨h.busyAlone, h.doneAlone, h.errCode, h.errCodeLe⟩

namespace State.Inv

variable {s t : State}

/-- A change of the model's own fields, of OPLATCH or of the operand registers keeps the invariant, and so does a fault list
that grows. -/
theorem of_core_eq (hi : s.Inv) (buf : t.buf = s.buf) (status : t.status = s.status) (res : t.res = s.res)
    (bufLast : t.bufLast = s.bufLast) (grows : TrailGrows s.trail t.trail) : t.Inv where
  canonical := buf ▸ hi.canonical
  bounded := by
    have size : bufSize t = bufSize s := by simp only [bufSize, bufLast]
    rw [buf, size]
    exact hi.bounded
  legal := status ▸ hi.legal
  results := by rw [status, res]; exact hi.results
  errInfo := by rw [status, res]; exact hi.errInfo
  hazNoted := by
    rw [status]
    intro hz
    obtain ⟨a, ha⟩ := hi.hazNoted hz
    exact ⟨a, grows.faults.subset ha⟩

theorem setTrail (hi : s.Inv) {t' : Trail} (grows : TrailGrows s.trail t') : ({ s with trail := t' } : State).Inv :=
  hi.of_core_eq rfl rfl rfl rfl grows

theorem takeTurn (hi : s.Inv) : (takeTurn s).Inv := hi.of_core_eq rfl rfl rfl rfl (.refl _)

theorem setProgram (hi : s.Inv) (p : List HostOp) : ({ s with program := p } : State).Inv :=
  hi.of_core_eq rfl rfl rfl rfl (.refl _)

theorem handBack (hi : s.Inv) (sp : Space) (i : Nat) (v : Word) : (handBack sp i v s).Inv :=
  hi.of_core_eq rfl rfl rfl rfl (.refl _)

/-- A hazard sets HAZ and records itself (R113). -/
theorem hazard (hi : s.Inv) (a : Access) : (hazard a s).Inv where
  canonical := hi.canonical
  bounded := hi.bounded
  legal := hi.legal.statusHazard
  results := hi.results
  errInfo := hi.errInfo
  hazNoted := fun _ => ⟨a, by simp⟩

/-- An accepted CMD write leaves no outcome of an earlier command (R24). -/
theorem issueCommand (hi : s.Inv) (w : Word) : (issueCommand w s).Inv where
  canonical := hi.canonical
  bounded := hi.bounded
  legal := legal_statusIssued _
  results := fun _ => ⟨rfl, rfl⟩
  errInfo := fun _ => ⟨rfl, rfl⟩
  hazNoted := hi.hazNoted

/-- A write of a cell below BUF_SIZE keeps the buffer canonical and bounded (R40, R42). -/
theorem memWrite (hi : s.Inv) {i : Nat} (inside : i < bufSize s) (v : Byte) :
    ({ s with buf := memWrite s.buf i v } : State).Inv where
  canonical := memWrite_wf _ _ _ hi.canonical
  bounded := memWrite_bounded _ _ _ _ inside hi.bounded
  legal := hi.legal
  results := hi.results
  errInfo := hi.errInfo
  hazNoted := hi.hazNoted

/-- An error completion of a busy CORE: DONE was 0, so RESULT and RESULT_LEN, which it leaves, are 0 (R77). -/
theorem raiseError (hi : s.Inv) (busy : s.status.busy = true) (e : CmdError) : (raiseError e s).Inv where
  canonical := hi.canonical
  bounded := hi.bounded
  legal := legal_statusError _ _
  results := fun _ => hi.results (hi.legal.busyAlone busy).1
  errInfo := fun h => Bool.noConfusion h
  hazNoted := hi.hazNoted

/-- A completion of a busy CORE: ERR was 0, so ERRINFO_A and ERRINFO_B, which it leaves, are 0 (R76). -/
theorem complete (hi : s.Inv) (busy : s.status.busy = true) (r n : Nat) {ws : List (Nat × Byte)}
    (inside : ∀ w ∈ ws, w.1 < bufSize s) : (complete r n ws s).Inv where
  canonical := writeAll_wf _ _ hi.canonical
  bounded := writeAll_bounded _ _ _ inside hi.bounded
  legal := legal_statusDone _
  results := fun h => Bool.noConfusion h
  errInfo := fun _ => hi.errInfo (hi.legal.busyAlone busy).2
  hazNoted := hi.hazNoted

/-- The reset event brings the invariant about in any state (R110). -/
theorem resetEvent (s : State) : (resetEvent s).Inv where
  canonical := .nil
  bounded := by simp
  legal := legal_reset
  results := fun _ => ⟨rfl, rfl⟩
  errInfo := fun _ => ⟨rfl, rfl⟩
  hazNoted := fun h => Bool.noConfusion h

end State.Inv

/-- The writes of a region inside the buffer are of cells below BUF_SIZE. -/
theorem writeBytes_below {a n : Nat} {bs : List Byte} (inside : bs = [] ∨ a + bs.length ≤ n) :
    ∀ w ∈ writeBytes a bs, w.1 < n := by
  intro w hw
  have hm := mem_writeBytes bs a w hw
  rcases inside with rfl | inside
  · simp [writeBytes] at hw
  · omega

theorem HostEffect.inv {a : Access} {s t : State} (h : HostEffect a s t) (hi : s.Inv) : t.Inv := by
  cases h with
  | refused sp i w => exact hi.setTrail (noteFault_grows _ _)
  | hazardWrite _ => exact hi.hazard a
  | hazardRead _ sp i v => exact ((hi.setTrail (noteDraw_grows _)).hazard a).handBack sp i v
  | read sp i v => exact hi.handBack sp i v
  | readCell i _ => exact (hi.setTrail (readCell_grows _ _ _)).handBack _ _ _
  | issue v _ _ => exact hi.issueCommand v
  | setOperands o _ => exact hi.of_core_eq rfl rfl rfl rfl (.refl _)
  | writeCell i v inside _ => exact hi.memWrite inside v

theorem StepEffect.inv {s t : State} (h : StepEffect s t) (hi : s.Inv) : t.Inv := by
  cases h with
  | nothing => exact hi.takeTurn
  | access _ effect => exact effect.inv (hi.takeTurn.setProgram _)
  | poll p => exact (hi.takeTurn.setProgram p).handBack _ _ _
  | reset _ => exact .resetEvent _
  | failed e t' busy grows => exact (hi.takeTurn.setTrail grows).raiseError busy e
  | completed r a bs t' busy grows inside =>
    exact (hi.takeTurn.setTrail grows).complete busy r bs.length (writeBytes_below inside)

/-! ### Accesses of the CSR window (R23 to R33) -/

section Csr

variable (c : Csr) (v : Word) {s : State}

theorem hostAccess_writeCsr_idle (idle : s.status.busy = false) :
    hostAccess (.write .csr (csrOffset c) 32 v) s = writeCsr c v s := by
  simp [hostAccess, hostWrite, idle]

theorem hostAccess_readCsr_idle (idle : s.status.busy = false) :
    hostAccess (.read .csr (csrOffset c) 32) s = handBack .csr (csrOffset c) (readCsr c s) s := by
  simp [hostAccess, hostRead, idle]

theorem hostAccess_writeCsr_busy (busy : s.status.busy = true) :
    hostAccess (.write .csr (csrOffset c) 32 v) s = hazard (.write .csr (csrOffset c) 32 v) s := by
  simp [hostAccess, hostWrite, busy]

theorem hostAccess_readCsr_busy (busy : s.status.busy = true) (other : c ≠ .status) :
    hostAccess (.read .csr (csrOffset c) 32) s =
      handBack .csr (csrOffset c) (Config.freeWord s.trail.draws)
        (hazard (.read .csr (csrOffset c) 32) (drawFree s)) := by
  simp [hostAccess, hostRead, busy, other]

end Csr

/-- The seven operand registers (R26 to R29). -/
def operandCsrs : List Csr := [.srcAddr, .srcLen, .dstAddr, .dstLen, .carAddr, .carLen, .value]

/-- The registers and reserved offsets at which a write is ignored (R32, R33). -/
def ignoredCsrs : List Csr := [.status, .result, .resultLen, .errInfoA, .errInfoB, .rsvd34, .rsvd38, .rsvd3C]

theorem writeCsr_ignored {c : Csr} (h : c ∈ ignoredCsrs) (v : Word) (s : State) : writeCsr c v s = s := by
  fin_cases h <;> rfl

/-- A write to an operand register changes the operand registers alone. -/
theorem writeCsr_operand_frame {c : Csr} (h : c ∈ operandCsrs) (v : Word) (s : State) :
    writeCsr c v s = { s with opnd := (writeCsr c v s).opnd } := by
  fin_cases h <;> rfl

/-- An operand register reads what was written to it. -/
theorem readCsr_writeCsr_same {c : Csr} (h : c ∈ operandCsrs) (v : Word) (s : State) :
    readCsr c (writeCsr c v s) = v := by
  fin_cases h <;> rfl

/-- A write to an operand register leaves what every other register reads. -/
theorem readCsr_writeCsr_other {c c' : Csr} (h : c ∈ operandCsrs) (ne : c' ≠ c) (v : Word) (s : State) :
    readCsr c' (writeCsr c v s) = readCsr c' s := by
  fin_cases h <;> cases c' <;> first | rfl | exact absurd rfl ne

/-- Every register reads 0 after the reset event (R37, R110). -/
theorem readCsr_resetEvent (c : Csr) (s : State) : readCsr c (resetEvent s) = 0 := by cases c <;> rfl

/-- STATUS as its fields stand side by side: ERRCODE under 24 zeros, then HAZ, ERR, DONE and BUSY (R25). -/
theorem statusWord_eq_concat (st : Status) :
    statusWord st = ((((st.errCode.setWidth 28).concat st.haz).concat st.err).concat st.done).concat st.busy := by
  apply BitVec.eq_of_toNat_eq
  have hb := Bool.toNat_le st.busy
  have hd := Bool.toNat_le st.done
  have he := Bool.toNat_le st.err
  have hz := Bool.toNat_le st.haz
  simp only [statusWord, BitVec.toNat_ofNat, BitVec.toNat_concat, BitVec.toNat_setWidth]
  omega

/-! ### The statements -/

/-- Settles O27: each effect a step can have keeps the invariant. -/
theorem stepKeepsInvariant : Obligations.StepKeepsInvariant :=
  fun _ _ hi h => (step_effect h).inv hi

/-- Settles O26: the reset state is what the reset event leaves of itself. -/
theorem invariantAtReset : Obligations.InvariantAtReset := State.Inv.resetEvent State.reset

/-- Settles O21: only the reset event clears HAZ. -/
theorem hazStaysUntilReset : Obligations.HazStaysUntilReset := by
  intro s t h hz
  cases step_effect h with
  | reset turn => exact .inr turn
  | access _ effect => exact .inl (effect.haz hz)
  | nothing | poll | failed | completed => exact .inl hz

/-- Settles O22: the fault list of a run only grows, and a final state has an empty one. -/
theorem recordedFaultIsForGood : Obligations.RecordedFaultIsForGood := by
  intro n s t h
  have grows := (core_run_trailGrows h).faults
  exact ⟨grows, fun recorded => not_final_of_faults (grows.ne_nil recorded)⟩

/-- Settles O23: of all effects of a step, only that of a host access can set BUSY. -/
theorem onlyCmdWriteStartsACommand : Obligations.OnlyCmdWriteStartsACommand := by
  intro s t h idle busy
  cases step_effect h with
  | access next effect =>
    obtain ⟨w, rfl, latched⟩ := effect.issued idle busy
    exact ⟨w, _, next, latched⟩
  | nothing | poll => exact absurd (idle.symm.trans busy) Bool.false_ne_true
  | reset | failed | completed => exact Bool.noConfusion busy

/-- Settles O29: a command ends in `raiseError` or `complete`, which write neither these registers nor the host's side. -/
theorem commandsKeepOtherRegisters : Obligations.CommandsKeepOtherRegisters := by
  intro i s t h
  obtain ⟨t', grows, ⟨e, rfl⟩ | ⟨r, bs, _, _, rfl⟩⟩ := exec_cases h
  · exact ⟨⟨rfl, rfl, rfl, rfl, rfl, rfl⟩, rfl, grows.faults, grows.draws, fun h => Bool.noConfusion h,
      fun _ => ⟨rfl, rfl⟩⟩
  · exact ⟨⟨rfl, rfl, rfl, rfl, rfl, rfl⟩, rfl, grows.faults, grows.draws, fun _ => ⟨rfl, rfl⟩,
      fun h => Bool.noConfusion h⟩

/-- The six commands of R27 store in DST. -/
theorem storeRegion_dst {i : Instr}
    (h : i ∈ [Instr.byteToBits, .u32ToBits, .extractLsb, .bitsToBytes, .makeBits, .extract]) (s : State) :
    storeRegion i s = regionOf s.opnd .dst := by
  fin_cases h <;> rfl

/-- Settles O30: a completion writes RESULT_LEN bytes from the start of DST on, at most DST_LEN of them. -/
theorem dstCommandsWriteOnlyDst : Obligations.DstCommandsWriteOnlyDst := by
  intro i s t hi h
  obtain ⟨t', _, ⟨e, rfl⟩ | ⟨r, bs, fits, _, rfl⟩⟩ := exec_cases h
  · exact rfl
  · rw [storeRegion_dst hi] at fits ⊢
    replace fits : bs.length ≤ s.opnd.dstLen.toNat := fits
    have len : (BitVec.ofNat 32 bs.length).toNat = bs.length :=
      Nat.mod_eq_of_lt (Nat.lt_of_le_of_lt fits s.opnd.dstLen.isLt)
    simp only [complete_status, statusDone_err, complete_res, complete_buf, len, Bool.false_eq_true, if_false]
    exact ⟨fits, sameOutside_writeBytes bs s.buf _⟩

/-- Settles O6: on the host's turn the step is the host's move, which is the access it has next. -/
theorem stepPerformsTheHostAccess : Obligations.StepPerformsTheHostAccess := by
  intro s a ops next turn
  simp only [step, whoMoves_eq_host.2 turn, hostMove, takeTurn, next]

/-- Settles O8: the reset state is what the reset event leaves of itself, and its buffer and fault list are empty. -/
theorem resetStateReadsZero : Obligations.ResetStateReadsZero :=
  ⟨fun c => readCsr_resetEvent c State.reset, rfl, fun _ => rfl, rfl⟩

/-- Settles O11: while idle the write is `issueCommand`; while BUSY it is a hazard, which keeps OPLATCH. -/
theorem cmdWriteIssuesTheCommand : Obligations.CmdWriteIssuesTheCommand := by
  intro s w
  refine ⟨fun idle => ⟨hostAccess_writeCsr_idle .cmd w idle, hostAccess_readCsr_idle .cmd idle⟩, fun busy => ?_⟩
  have hw : hostAccess (.write .csr 0x00 32 w) s = hazard (.write .csr 0x00 32 w) s :=
    hostAccess_writeCsr_busy .cmd w busy
  simp [hw]

/-- Settles O12: while idle the write is `writeCsr`. -/
theorem operandCsrsHoldAnyWord : Obligations.OperandCsrsHoldAnyWord := by
  intro s c v idle hc
  exact ⟨_, hostAccess_writeCsr_idle c v idle, readCsr_writeCsr_same hc v s,
    fun _ ne => readCsr_writeCsr_other hc ne v s, writeCsr_operand_frame hc v s⟩

/-- Settles O13: while idle the write is `writeCsr`, ignored at these registers; while BUSY both accesses are hazards. -/
theorem readOnlyCsrWritesAreIgnored : Obligations.ReadOnlyCsrWritesAreIgnored := by
  intro s v
  refine ⟨fun idle => ⟨fun c hc => ?_, hostAccess_readCsr_idle .cmd idle⟩,
    fun busy => ⟨fun c => ?_, fun c other => ?_⟩⟩
  · rw [hostAccess_writeCsr_idle c v idle]
    exact writeCsr_ignored (List.mem_append_left [.rsvd34, .rsvd38, .rsvd3C] hc) v s
  · simp [hostAccess_writeCsr_busy c v busy]
  · simp [hostAccess_readCsr_busy c busy other]

/-- Settles O14: the map lists each register's offset with its reading, and a write at a reserved offset is ignored. -/
theorem csrMapReadsBack : Obligations.CsrMapReadsBack := by
  intro s idle
  have reserved : ∀ c ∈ [Csr.rsvd34, .rsvd38, .rsvd3C], ∀ v, hostAccess (.write .csr (csrOffset c) 32 v) s = s := by
    intro c hc v
    rw [hostAccess_writeCsr_idle c v idle]
    exact writeCsr_ignored (List.mem_append_right [.status, .result, .resultLen, .errInfoA, .errInfoB] hc) v s
  constructor
  · intro p hp
    obtain ⟨c, _, rfl⟩ : ∃ c ∈ csrList, (csrOffset c, readCsr c s) = p := List.mem_map.1 hp
    exact hostAccess_readCsr_idle c idle
  · intro i hi
    obtain ⟨c, hc, rfl⟩ : ∃ c ∈ [Csr.rsvd34, .rsvd38, .rsvd3C], csrOffset c = i := List.mem_map.1 hi
    exact reserved c hc

/-- Settles O15: each field is read off the fields side by side. -/
theorem statusWordFields : Obligations.StatusWordFields := by
  intro st
  refine ⟨statusWord_busy st, ?_⟩
  rw [statusWord_eq_concat]
  refine ⟨by simp, by simp, by simp, ?_, ?_⟩
  · ext i hi
    have inWord : i < 28 := by omega
    simp [BitVec.getElem_extractLsb', BitVec.getLsbD_concat, hi, inWord]
  · ext i hi
    simp [BitVec.getElem_extractLsb', BitVec.getLsbD_concat]

end Sys2Proof.Machine
end

section
/-! SUPPORT. The memory family (20_memory.md): what a host access of the buffer does, and the accesses with no meaning. -/

namespace Sys2Proof.Machine

open Sys2Proof

/-! ### Accesses of the buffer window (R42, R44) -/

section Buffer

variable {s : State} {i : Nat}

theorem hostAccess_readBuf_idle (inside : i < bufSize s) (idle : s.status.busy = false) :
    hostAccess (.read .buf i 8) s =
      handBack .buf i ((readCell s.buf i s.trail).1.setWidth 32) { s with trail := (readCell s.buf i s.trail).2 } := by
  simp [hostAccess, hostRead, target_buf inside, idle]

theorem hostAccess_writeBuf_idle (inside : i < bufSize s) (idle : s.status.busy = false) (w : Word) :
    hostAccess (.write .buf i 8 w) s = { s with buf := memWrite s.buf i (w.setWidth 8) } := by
  simp [hostAccess, hostWrite, target_buf inside, idle]

theorem hostAccess_readBuf_busy (inside : i < bufSize s) (busy : s.status.busy = true) :
    hostAccess (.read .buf i 8) s =
      handBack .buf i ((Config.freeByte s.trail.draws).setWidth 32) (hazard (.read .buf i 8) (drawFree s)) := by
  simp [hostAccess, hostRead, target_buf inside, busy]

theorem hostAccess_writeBuf_busy (inside : i < bufSize s) (busy : s.status.busy = true) (w : Word) :
    hostAccess (.write .buf i 8 w) s = hazard (.write .buf i 8 w) s := by
  simp [hostAccess, hostWrite, target_buf inside, busy]

end Buffer

/-- The byte that a write carries in bits [7:0] is the byte written (log 9). -/
theorem setWidth_setWidth_byte (v : Byte) : (v.setWidth 32).setWidth 8 = v := by
  rw [BitVec.setWidth_setWidth_of_le v (by decide), BitVec.setWidth_eq]

/-! ### Accesses with no meaning (R45, R46) -/

/-- No register stands at an offset that is misaligned or past 0x3C (R45). -/
theorem csrAt_eq_none {i : Nat} (h : ¬(i % 4 = 0 ∧ i ≤ 0x3C)) : csrAt i = none := by
  rw [← Option.not_isSome_iff_eq_none, csrAt_isSome]
  omega

theorem target_csr_none {i width : Nat} (h : ¬(width = 32 ∧ i % 4 = 0 ∧ i ≤ 0x3C)) (s : State) :
    target s .csr i width = none := by
  by_cases hw : width = 32
  · simp [target, csrAt_eq_none fun ok => h ⟨hw, ok⟩]
  · simp [target, hw]

theorem target_buf_none {s : State} {i width : Nat} (h : ¬(width = 8 ∧ i < bufSize s)) :
    target s .buf i width = none := if_neg h

theorem hostAccess_read_refused {s : State} {sp : Space} {i width : Nat} (h : target s sp i width = none) :
    hostAccess (.read sp i width) s = recordFault (.refusedAccess sp i width) s := by
  simp [hostAccess, hostRead, h]

theorem hostAccess_write_refused {s : State} {sp : Space} {i width : Nat} (h : target s sp i width = none)
    (data : Word) : hostAccess (.write sp i width data) s = recordFault (.refusedAccess sp i width) s := by
  simp [hostAccess, hostWrite, h]

/-! ### The statements about host accesses -/

/-- Settles O16: while idle the accesses are `readCell` and `memWrite`; while BUSY both are hazards. -/
theorem hostBufferAccesses : Obligations.HostBufferAccesses := by
  intro s i inside
  refine ⟨fun idle => ⟨fun b hb => ?_, fun v => ⟨memWrite s.buf i v, ?_, memRead_memWrite_same _ _ _,
    fun j ne => memRead_memWrite_other _ _ ne⟩⟩, fun busy => ⟨?_, fun w => ?_⟩⟩
  · rw [hostAccess_readBuf_idle inside idle, readCell_of_some hb]
    rfl
  · rw [hostAccess_writeBuf_idle inside idle, setWidth_setWidth_byte]
  · simp [hostAccess_readBuf_busy inside busy]
  · simp [hostAccess_writeBuf_busy inside busy]

/-- Settles O17: the byte handed back is the next free byte. -/
theorem unspecifiedHostReadIsFree : Obligations.UnspecifiedHostReadIsFree := by
  intro s i inside idle unspecified
  refine ⟨Config.freeByte s.trail.draws, ?_⟩
  rw [hostAccess_readBuf_idle inside idle, readCell_of_none unspecified]
  rfl

/-- Settles O18: such an access has no target. -/
theorem illFormedAccessesAreRefused : Obligations.IllFormedAccessesAreRefused := by
  intro s sp i width illFormed
  have noTarget : target s sp i width = none := by
    cases sp with
    | csr => exact target_csr_none illFormed s
    | buf => exact target_buf_none illFormed
  exact ⟨hostAccess_read_refused noTarget, hostAccess_write_refused noTarget⟩

end Sys2Proof.Machine
end

section
/-! SUPPORT. The memory family (20_memory.md R44): the outcome of each command that reads cells once its checks pass, and
what such a command does over unspecified cells. -/

namespace Sys2Proof.Machine

open Sys2Proof

/-! ### The outcome of a command -/

/-- The outcome that the engine step of a command finishes with (R75). -/
def outcomeOf : Instr → State → CmdOutcome × Trail
  | .byteToBits => outcomeByteToBits
  | .bitsToByte => outcomeBitsToByte
  | .u32ToBits => outcomeU32ToBits
  | .bitsToU32 => outcomeBitsToU32
  | .extractLsb => outcomeExtractLsb
  | .bitsToBytes => outcomeBitsToBytes
  | .makeBits => outcomeMakeBits
  | .embed => outcomeEmbed
  | .extract => outcomeExtract

theorem exec_eq_finish (i : Instr) (s : State) : exec i s = .next (finishCommand (outcomeOf i s) s) := by
  cases i <;> rfl

theorem exec_of_outcome {i : Instr} {s : State} {r : CmdOutcome × Trail} (h : outcomeOf i s = r) :
    exec i s = .next (finishCommand r s) := by
  rw [exec_eq_finish, h]

/-- How a bit reader goes on from `read_bits`: BADBIT ends it, else the Bits read give its outcome (R80). -/
def afterBits (go : List Bit → CmdOutcome) : Except CmdError (List Bit) × Trail → CmdOutcome × Trail
  | (.error e, t) => (.error e, t)
  | (.ok bits, t) => (go bits, t)

theorem outcomeBitsToByte_eq (s : State) :
    outcomeBitsToByte s =
      afterChecks [checkRange s .src, raiseIf (s.opnd.srcLen.toNat > 8) .length 8 s.opnd.srcLen.toNat] s.trail fun t =>
        afterBits (fun bits => .done (unpackByte bits).toNat 0 [])
          (readBits s.buf s.opnd.srcAddr.toNat s.opnd.srcLen.toNat t) := rfl

theorem outcomeBitsToU32_eq (s : State) :
    outcomeBitsToU32 s =
      afterChecks [checkRange s .src, raiseIf (s.opnd.srcLen.toNat != 32) .length 32 s.opnd.srcLen.toNat] s.trail
        fun t => afterBits (fun bits => .done (accumulate bits) 0 []) (readBits s.buf s.opnd.srcAddr.toNat 32 t) := rfl

theorem outcomeBitsToBytes_eq (s : State) :
    outcomeBitsToBytes s =
      afterChecks (srcDstChecks s (ceilDiv s.opnd.srcLen.toNat 8)) s.trail fun t =>
        afterBits
          (fun bits => .done 0 (ceilDiv s.opnd.srcLen.toNat 8) (writeBytes s.opnd.dstAddr.toNat (unpackBytes bits)))
          (readBits s.buf s.opnd.srcAddr.toNat s.opnd.srcLen.toNat t) := rfl

/-! ### The checks before the reads pass -/

theorem raiseIf_none {bad : Bool} {c : ErrCode} {a b : Nat} : raiseIf bad c a b = none ↔ bad = false := by
  cases bad <;> simp [raiseIf]

theorem srcDstChecks_none {s : State} {need : Nat} :
    firstError (srcDstChecks s need) = none ↔
      srcOk s ∧ dstOk s ∧ ShareNone (regionOf s.opnd .src) (regionOf s.opnd .dst) ∧ need ≤ s.opnd.dstLen.toNat := by
  simp [srcDstChecks, firstError_eq_none, checkRange_none, checkOverlap_none, checkDst_none, regionOf]

section Pass

variable {s : State}

theorem outcomeBitsToByte_pass (src : srcOk s) (len : s.opnd.srcLen.toNat ≤ 8) :
    outcomeBitsToByte s = afterBits (fun bits => .done (unpackByte bits).toNat 0 [])
      (readBits s.buf s.opnd.srcAddr.toNat s.opnd.srcLen.toNat s.trail) := by
  rw [outcomeBitsToByte_eq]
  exact afterChecks_pass (by simp [firstError_eq_none, checkRange_none, raiseIf_none, regionOf, src, len]) _ _

theorem outcomeBitsToU32_pass (src : srcOk s) (len : s.opnd.srcLen.toNat = 32) :
    outcomeBitsToU32 s = afterBits (fun bits => .done (accumulate bits) 0 [])
      (readBits s.buf s.opnd.srcAddr.toNat 32 s.trail) := by
  rw [outcomeBitsToU32_eq]
  refine afterChecks_pass ?_ _ _
  have range : checkRange s .src = none := checkRange_none.2 src
  simp [firstError_eq_none, raiseIf_none, range, len]

theorem outcomeBitsToBytes_pass (src : srcOk s) (dst : dstOk s)
    (apart : ShareNone (regionOf s.opnd .src) (regionOf s.opnd .dst))
    (fits : ceilDiv s.opnd.srcLen.toNat 8 ≤ s.opnd.dstLen.toNat) :
    outcomeBitsToBytes s = afterBits
      (fun bits => .done 0 (ceilDiv s.opnd.srcLen.toNat 8) (writeBytes s.opnd.dstAddr.toNat (unpackBytes bits)))
      (readBits s.buf s.opnd.srcAddr.toNat s.opnd.srcLen.toNat s.trail) := by
  rw [outcomeBitsToBytes_eq]
  exact afterChecks_pass (srcDstChecks_none.2 ⟨src, dst, apart, fits⟩) _ _

theorem outcomeExtractLsb_pass (src : srcOk s) (dst : dstOk s)
    (apart : ShareNone (regionOf s.opnd .src) (regionOf s.opnd .dst))
    (fits : s.opnd.srcLen.toNat ≤ s.opnd.dstLen.toNat) :
    outcomeExtractLsb s =
      (.done 0 s.opnd.srcLen.toNat (writeBits s.opnd.dstAddr.toNat
          (lsbs (readBytes s.buf s.opnd.srcAddr.toNat s.opnd.srcLen.toNat s.trail).1)),
        (readBytes s.buf s.opnd.srcAddr.toNat s.opnd.srcLen.toNat s.trail).2) :=
  afterChecks_pass (srcDstChecks_none.2 ⟨src, dst, apart, fits⟩) _ _

theorem outcomeMakeBits_pass (src : srcOk s) (dst : dstOk s)
    (apart : ShareNone (regionOf s.opnd .src) (regionOf s.opnd .dst))
    (fits : 8 * s.opnd.srcLen.toNat ≤ s.opnd.dstLen.toNat) :
    outcomeMakeBits s =
      (.done 0 (8 * s.opnd.srcLen.toNat) (writeBits s.opnd.dstAddr.toNat
          (packBytes (readBytes s.buf s.opnd.srcAddr.toNat s.opnd.srcLen.toNat s.trail).1)),
        (readBytes s.buf s.opnd.srcAddr.toNat s.opnd.srcLen.toNat s.trail).2) :=
  afterChecks_pass (srcDstChecks_none.2 ⟨src, dst, apart, fits⟩) _ _

end Pass

/-! ### EMBED and EXTRACT -/

/-- The checks of EMBED, all of them before its reads (R89). -/
def embedChecks (s : State) : List (Option CmdError) :=
  [checkRange s .src, checkRange s .car, checkOverlap s .src .car,
    raiseIf (frameLen s.opnd.srcLen.toNat > s.opnd.carLen.toNat) .insufficientCapacity
      (frameLen s.opnd.srcLen.toNat) s.opnd.carLen.toNat]

theorem embedChecks_none {s : State} :
    firstError (embedChecks s) = none ↔
      srcOk s ∧ carOk s ∧ ShareNone (regionOf s.opnd .src) (regionOf s.opnd .car) ∧
        frameLen s.opnd.srcLen.toNat ≤ s.opnd.carLen.toNat := by
  simp [embedChecks, firstError_eq_none, checkRange_none, checkOverlap_none, raiseIf_none, regionOf]

/-- What EMBED reads: the payload, then the part of the carrier that the frame covers (R89). -/
def embedReads (s : State) (t : Trail) : (List Byte × List Byte) × Trail :=
  let payload := readBytes s.buf s.opnd.srcAddr.toNat s.opnd.srcLen.toNat t
  let cs := readBytes s.buf s.opnd.carAddr.toNat (frameLen s.opnd.srcLen.toNat) payload.2
  ((payload.1, cs.1), cs.2)

/-- The end of EMBED, by the payload and the carrier bytes it read (R89). -/
def embedDone (s : State) (read : List Byte × List Byte) : CmdOutcome :=
  .done (8 * s.opnd.srcLen.toNat) (frameLen s.opnd.srcLen.toNat)
    (writeBytes s.opnd.carAddr.toNat (embedFrame read.2 (frame read.1)))

theorem outcomeEmbed_eq (s : State) :
    outcomeEmbed s =
      afterChecks (embedChecks s) s.trail fun t => (embedDone s (embedReads s t).1, (embedReads s t).2) := rfl

theorem outcomeEmbed_pass {s : State} (src : srcOk s) (car : carOk s)
    (apart : ShareNone (regionOf s.opnd .src) (regionOf s.opnd .car))
    (fits : frameLen s.opnd.srcLen.toNat ≤ s.opnd.carLen.toNat) :
    outcomeEmbed s = (embedDone s (embedReads s s.trail).1, (embedReads s s.trail).2) := by
  rw [outcomeEmbed_eq]
  exact afterChecks_pass (embedChecks_none.2 ⟨src, car, apart, fits⟩) _ _

/-- The checks of EXTRACT before it reads the header (R94). -/
def extractChecks (s : State) : List (Option CmdError) :=
  [checkRange s .dst, checkRange s .car, checkOverlap s .car .dst,
    raiseIf (s.opnd.carLen.toNat < 32) .truncatedHeader 32 s.opnd.carLen.toNat]

theorem extractChecks_none {s : State} :
    firstError (extractChecks s) = none ↔
      dstOk s ∧ carOk s ∧ ShareNone (regionOf s.opnd .car) (regionOf s.opnd .dst) ∧ 32 ≤ s.opnd.carLen.toNat := by
  simp [extractChecks, firstError_eq_none, checkRange_none, checkOverlap_none, raiseIf_none, regionOf]

/-- The header bytes that EXTRACT reads (R94). -/
def extractHeader (s : State) (t : Trail) : List Byte × Trail := readBytes s.buf s.opnd.carAddr.toNat 32 t

theorem outcomeExtract_eq (s : State) :
    outcomeExtract s =
      afterChecks (extractChecks s) s.trail fun t =>
        extractPayload s (accumulate (lsbs (extractHeader s t).1)) (extractHeader s t).2 := rfl

theorem outcomeExtract_pass {s : State} (dst : dstOk s) (car : carOk s)
    (apart : ShareNone (regionOf s.opnd .car) (regionOf s.opnd .dst)) (len : 32 ≤ s.opnd.carLen.toNat) :
    outcomeExtract s =
      extractPayload s (accumulate (lsbs (extractHeader s s.trail).1)) (extractHeader s s.trail).2 := by
  rw [outcomeExtract_eq]
  exact afterChecks_pass (extractChecks_none.2 ⟨dst, car, apart, len⟩) _ _

section Payload

variable {s : State} {n : Nat}

/-- The checks of EXTRACT behind the header `n` (R94; conflict C1). -/
def payloadChecks (s : State) (n : Nat) : List (Option CmdError) :=
  [raiseIf (n > s.opnd.carLen.toNat - 32) .truncatedPayload n (s.opnd.carLen.toNat - 32), checkDst s (ceilDiv n 8)]

theorem payloadChecks_none :
    firstError (payloadChecks s n) = none ↔ n ≤ s.opnd.carLen.toNat - 32 ∧ ceilDiv n 8 ≤ s.opnd.dstLen.toNat := by
  simp [payloadChecks, firstError_eq_none, raiseIf_none, checkDst_none]

theorem extractPayload_truncated (t : Trail) (h : s.opnd.carLen.toNat - 32 < n) :
    extractPayload s n t = (.error ⟨.truncatedPayload, n, s.opnd.carLen.toNat - 32⟩, t) :=
  afterChecks_error (by rw [raiseIf_of_true (decide_eq_true h), firstError_some]) _ _

theorem extractPayload_small (t : Trail) (h : ¬s.opnd.carLen.toNat - 32 < n)
    (small : s.opnd.dstLen.toNat < ceilDiv n 8) :
    extractPayload s n t = (.error ⟨.dstSmall, ceilDiv n 8, s.opnd.dstLen.toNat⟩, t) :=
  afterChecks_error (by rw [raiseIf_of_false (decide_eq_false h), checkDst_some small]; rfl) _ _

theorem extractPayload_pass (t : Trail) (h : ¬s.opnd.carLen.toNat - 32 < n)
    (fits : ¬s.opnd.dstLen.toNat < ceilDiv n 8) :
    extractPayload s n t =
      (.done n (ceilDiv n 8) (writeBytes s.opnd.dstAddr.toNat
          (unpackBytes (lsbs (readBytes s.buf (s.opnd.carAddr.toNat + 32) n t).1))),
        (readBytes s.buf (s.opnd.carAddr.toNat + 32) n t).2) :=
  afterChecks_pass (payloadChecks_none.2 ⟨Nat.le_of_not_lt h, Nat.le_of_not_lt fits⟩) _ _

end Payload

/-- The 32 header bits count to a 32-bit number (R71). -/
theorem accumulate_header_lt {hs : List Byte} (len : hs.length = 32) : accumulate (lsbs hs) < 2 ^ 32 := by
  have := accumulate_lt (lsbs hs)
  rwa [lsbs_length, len] at this

/-! ### The end of the engine step, in the terms claims use -/

/-- The end of a command changes nothing of the trail that its reads left. -/
@[simp] theorem finishCommand_trail (r : CmdOutcome × Trail) (s : State) : (finishCommand r s).trail = r.2 := by
  obtain ⟨_ | _, t⟩ := r <;> rfl

/-- A completion that stores `n` bytes, whatever trail its reads left. -/
theorem finish_stores {r n : Nat} {bs : List Byte} (hr : r < 2 ^ 32) (hn : n < 2 ^ 32) (len : bs.length = n) (a : Nat)
    (t : Trail) (s : State) :
    CompletedWith r n s (finishCommand (.done r n (writeBytes a bs), t) s) ∧
      HoldsBytes (finishCommand (.done r n (writeBytes a bs), t) s).buf a bs ∧
      SameOutside s.buf (finishCommand (.done r n (writeBytes a bs), t) s).buf a n := by
  subst len
  exact ⟨completedWith_complete hr hn _ t s, holdsBytes_writeBytes bs s.buf a, sameOutside_writeBytes bs s.buf a⟩

/-- An error behind reads: nothing but the trail tells that they took place. -/
theorem finish_error (c : ErrCode) {a b : Nat} (ha : a < 2 ^ 32) (hb : b < 2 ^ 32) (t : Trail) (s : State) :
    FailedWith (errCodeBits c).toNat a b { s with trail := t } (finishCommand (.error ⟨c, a, b⟩, t) s) :=
  failedWith_raiseError c ha hb { s with trail := t }

/-- A bit reader has the two ends of BitReadEnds, whatever cells are unspecified (R44, R80). -/
theorem bitReadEnds_finish {s : State} {n : Nat} {go : List Bit → CmdOutcome} {P : List Bit → State → Prop}
    (hn : n < 2 ^ 32) (completes : ∀ bits t', bits.length = n → P bits (finishCommand (go bits, t') s)) :
    BitReadEnds n (fun bits => P bits (finishCommand (afterBits go (readBits s.buf s.opnd.srcAddr.toNat n s.trail)) s)) s
      (finishCommand (afterBits go (readBits s.buf s.opnd.srcAddr.toNat n s.trail)) s) := by
  rcases readBits_spec s.buf s.opnd.srcAddr.toNat n s.trail with
    ⟨bits, t', hread, len, agree, records⟩ | ⟨pre, v, t', hread, short, bad, agree, records⟩ <;> rw [hread]
  · exact .inl ⟨bits, len, agree, (congrArg Trail.faults (finishCommand_trail _ s)).trans records, completes bits t' len⟩
  · exact .inr ⟨pre, v, short, bad, agree, records,
      finish_error .badBit (Nat.lt_trans short hn) (Nat.lt_trans v.isLt (by decide)) t' s⟩

/-! ### The statements about unspecified cells -/

/-- Settles O47: each reads bytes as `readBytes_spec` says, and stores what it makes of them. -/
theorem unspecifiedBytesAreFree : Obligations.UnspecifiedBytesAreFree := by
  intro s src
  obtain ⟨agree, records⟩ := readBytes_spec s.buf s.opnd.srcLen.toNat s.opnd.srcAddr.toNat s.trail
  have len := readBytes_length s.buf s.opnd.srcLen.toNat s.opnd.srcAddr.toNat s.trail
  refine ⟨fun dst apart fits => ?_, fun dst apart fits => ?_, fun car apart fits => ?_⟩
  · obtain ⟨done, holds, outside⟩ :=
      finish_stores (r := 0) (bs := (lsbs _).map bitByte) (by decide) s.opnd.srcLen.isLt
        (by rw [List.length_map, lsbs_length, len]) _ _ s
    exact ⟨_, _, exec_of_outcome (outcomeExtractLsb_pass src dst apart fits), done, len, agree, holds, outside, records⟩
  · obtain ⟨done, holds, outside⟩ :=
      finish_stores (r := 0) (bs := (packBytes _).map bitByte) (by decide) (Nat.lt_of_le_of_lt fits s.opnd.dstLen.isLt)
        (by rw [List.length_map, packBytes_length, len]) _ _ s
    exact ⟨_, _, exec_of_outcome (outcomeMakeBits_pass src dst apart fits), done, len, agree, holds, outside, records⟩
  · obtain ⟨agree', records'⟩ := readBytes_spec s.buf (frameLen s.opnd.srcLen.toNat) s.opnd.carAddr.toNat
      (readBytes s.buf s.opnd.srcAddr.toNat s.opnd.srcLen.toNat s.trail).2
    have len' := readBytes_length s.buf (frameLen s.opnd.srcLen.toNat) s.opnd.carAddr.toNat
      (readBytes s.buf s.opnd.srcAddr.toNat s.opnd.srcLen.toNat s.trail).2
    have bound := Nat.lt_of_le_of_lt fits s.opnd.carLen.isLt
    obtain ⟨done, holds, outside⟩ :=
      finish_stores (r := 8 * s.opnd.srcLen.toNat) (n := frameLen s.opnd.srcLen.toNat) (by omega) bound
        (bs := embedFrame (embedReads s s.trail).1.2 (frame (embedReads s s.trail).1.1))
        (by simp [embedFrame, embedReads, frameLen]) s.opnd.carAddr.toNat (embedReads s s.trail).2 s
    exact ⟨_, _, _, exec_of_outcome (outcomeEmbed_pass src car apart fits), done, len, len', agree, agree', holds,
      outside, records'.trans (by rw [records]; rfl)⟩

/-- Settles O58: the checks passed, each command is its end after `read_bits`. -/
theorem bitReadersRunOnUnspecifiedCells : Obligations.BitReadersRunOnUnspecifiedCells := by
  intro s src
  refine ⟨fun len => ⟨_, exec_of_outcome (outcomeBitsToByte_pass src len), ?_⟩,
    fun len => ⟨_, exec_of_outcome (outcomeBitsToU32_pass src len), ?_⟩,
    fun dst apart fits => ⟨_, exec_of_outcome (outcomeBitsToBytes_pass src dst apart fits), ?_⟩⟩
  · refine bitReadEnds_finish (P := fun bits t => CompletedWith (unpackByte bits).toNat 0 s t ∧ t.buf = s.buf)
      s.opnd.srcLen.isLt fun bits t' _ => ⟨completedWith_complete ?_ (by decide) [] t' s, rfl⟩
    exact Nat.lt_trans (unpackByte bits).isLt (by decide)
  · refine bitReadEnds_finish (P := fun bits t => CompletedWith (accumulate bits) 0 s t ∧ t.buf = s.buf)
      (by decide) fun bits t' hl => ⟨completedWith_complete ?_ (by decide) [] t' s, rfl⟩
    exact hl ▸ accumulate_lt bits
  · refine bitReadEnds_finish (P := fun bits t => CompletedWith 0 (ceilDiv s.opnd.srcLen.toNat 8) s t ∧
        HoldsBytes t.buf s.opnd.dstAddr.toNat (unpackBytes bits) ∧
        SameOutside s.buf t.buf s.opnd.dstAddr.toNat (ceilDiv s.opnd.srcLen.toNat 8))
      s.opnd.srcLen.isLt fun bits t' hl => finish_stores (by decide) ?_ (by rw [unpackBytes_length, hl]) _ t' s
    exact Nat.lt_of_le_of_lt (ceilDiv_le _) s.opnd.srcLen.isLt

/-- Settles O59: the header bytes decide which of the three ends of EXTRACT it is. -/
theorem extractRunsOnUnspecifiedCells : Obligations.ExtractRunsOnUnspecifiedCells := by
  intro s dst car apart len
  obtain ⟨agree, records⟩ := readBytes_spec s.buf 32 s.opnd.carAddr.toNat s.trail
  have hlen : (extractHeader s s.trail).1.length = 32 := readBytes_length _ _ _ _
  have bound := accumulate_header_lt hlen
  refine ⟨_, (extractHeader s s.trail).1, exec_of_outcome (outcomeExtract_pass dst car apart len), hlen, agree, ?_⟩
  have bytes := Nat.lt_of_le_of_lt (ceilDiv_le _) bound
  split_ifs with truncated small
  · rw [extractPayload_truncated _ truncated]
    exact ⟨finish_error .truncatedPayload bound (Nat.lt_of_le_of_lt (Nat.sub_le _ _) s.opnd.carLen.isLt) _ s, records⟩
  · rw [extractPayload_small _ truncated small]
    exact ⟨finish_error .dstSmall bytes s.opnd.dstLen.isLt _ s, records⟩
  · rw [extractPayload_pass _ truncated small]
    generalize accumulate (lsbs (extractHeader s s.trail).1) = n at bound bytes
    obtain ⟨agree', records'⟩ := readBytes_spec s.buf n (s.opnd.carAddr.toNat + 32) (extractHeader s s.trail).2
    have count := readBytes_length s.buf n (s.opnd.carAddr.toNat + 32) (extractHeader s s.trail).2
    generalize readBytes s.buf (s.opnd.carAddr.toNat + 32) n (extractHeader s s.trail).2 = read at agree' records' count ⊢
    obtain ⟨cs, t'⟩ := read
    obtain rfl : cs.length = n := count
    obtain ⟨done, holds, outside⟩ :=
      finish_stores bound bytes (by rw [unpackBytes_length, lsbs_length]) s.opnd.dstAddr.toNat t' s
    exact ⟨cs, rfl, agree', done, holds, outside, records'.trans (congrArg (· ++ _) records)⟩

/-! ### An unspecified cell that is read is recorded -/

theorem mem_uninitRecords {m : Memory} {a n j : Nat} (hj : j < n) (h : memRead m (a + j) = none) :
    FaultRecord.uninitRead (a + j) ∈ uninitRecords m a n := by
  simp only [uninitRecords, List.mem_map, List.mem_filter, List.mem_range]
  exact ⟨j, ⟨hj, by simp [h]⟩, rfl⟩

theorem CompletedWith.done {r n : Nat} {s t : State} (h : CompletedWith r n s t) : t.status.done = true := by
  rw [h.status]

theorem FailedWith.errCode {c a b : Nat} {s t : State} (h : FailedWith c a b s t) :
    t.status.errCode = BitVec.ofNat 4 c := by
  rw [h.status]

/-- A byte above 1 that agrees with the cells stands behind all the Bits that these hold. -/
theorem length_le_of_badBit {m : Memory} {a : Nat} {pre pre' : List Bit} {v : Byte} (holds : HoldsBits m a pre)
    (agree : AgreesWith m a (pre'.map bitByte ++ [v])) (bad : 1 < v.toNat) : pre.length ≤ pre'.length := by
  by_contra short
  have inside : pre'.length < (pre.map bitByte).length := by simpa using short
  have same := agree pre'.length (by simp) _ (holds _ inside)
  have bit := bitByte_toNat_le pre[pre'.length]
  rw [List.getElem_append_right (by simp)] at same
  simp only [List.length_map, Nat.sub_self, List.getElem_singleton, List.getElem_map] at same
  rw [← same] at bit
  omega

/-- A bit reader comes to every cell behind specified Bits, up to the first one that is unspecified. -/
theorem BitReadEnds.recorded {n : Nat} {P : List Bit → Prop} {s t : State} (h : BitReadEnds n P s t)
    (done : ∀ bits, P bits → t.status.done = true) {pre : List Bit} (holds : HoldsBits s.buf s.opnd.srcAddr.toNat pre)
    (short : pre.length < n) (unspecified : memRead s.buf (s.opnd.srcAddr.toNat + pre.length) = none) :
    FaultRecord.uninitRead (s.opnd.srcAddr.toNat + pre.length) ∈ t.trail.faults ∧
      (t.status.done = true ∨ t.status.errCode = 9) := by
  rcases h with ⟨bits, _, _, records, completed⟩ | ⟨pre', v, _, bad, agree, records, failed⟩ <;> rw [records]
  · exact ⟨List.mem_append_right _ (mem_uninitRecords short unspecified), .inl (done bits completed)⟩
  · have reached := Nat.lt_succ_of_le (length_le_of_badBit holds agree bad)
    exact ⟨List.mem_append_right _ (mem_uninitRecords reached unspecified), .inr failed.errCode⟩

/-- Bytes that agree with cells that hold as many bytes are these. -/
theorem AgreesWith.eq_of_holds {m : Memory} {a : Nat} {bs cs : List Byte} (agree : AgreesWith m a bs)
    (holds : HoldsBytes m a cs) (len : bs.length = cs.length) : bs = cs :=
  List.ext_getElem len fun j hj hj' => agree j hj _ (holds j hj')

/-- Settles O48, from O58 and O59: an end that reads the cell has its record. -/
theorem unspecifiedBitsAreRecorded : Obligations.UnspecifiedBitsAreRecorded := by
  intro s
  refine ⟨fun i pre cmd src holds short unspecified => ?_, fun j hj dst car apart len unspecified => ?_,
    fun hs j holds hlen dst car apart len fits small hj unspecified => ?_⟩
  · obtain ⟨toByte, toU32, toBytes⟩ := bitReadersRunOnUnspecifiedCells s src
    rcases cmd with ⟨rfl, len⟩ | ⟨rfl, len⟩ | ⟨rfl, dst, apart, fits⟩
    · obtain ⟨t, hx, ends⟩ := toByte len
      exact ⟨t, hx, ends.recorded (fun _ h => h.1.done) holds short unspecified⟩
    · obtain ⟨t, hx, ends⟩ := toU32 len
      exact ⟨t, hx, ends.recorded (fun _ h => h.1.done) holds (len ▸ short) unspecified⟩
    · obtain ⟨t, hx, ends⟩ := toBytes dst apart fits
      exact ⟨t, hx, ends.recorded (fun _ h => h.1.done) holds short unspecified⟩
  · obtain ⟨t, hs, hx, _, _, ends⟩ := extractRunsOnUnspecifiedCells s dst car apart len
    have recorded := mem_uninitRecords hj unspecified
    refine ⟨t, hx, ?_⟩
    split_ifs at ends
    · obtain ⟨failed, records⟩ := ends
      exact ⟨records ▸ List.mem_append_right _ recorded, .inr (.inl failed.errCode)⟩
    · obtain ⟨failed, records⟩ := ends
      exact ⟨records ▸ List.mem_append_right _ recorded, .inr (.inr failed.errCode)⟩
    · obtain ⟨cs, _, _, completed, _, _, records⟩ := ends
      exact ⟨records ▸ List.mem_append_left _ (List.mem_append_right _ recorded), .inl completed.done⟩
  · obtain ⟨t, hs', hx, hlen', agree, ends⟩ := extractRunsOnUnspecifiedCells s dst car apart len
    obtain rfl := agree.eq_of_holds holds (hlen'.trans hlen.symm)
    rw [if_neg (Nat.not_lt_of_le fits), if_neg (Nat.not_lt_of_le small)] at ends
    obtain ⟨cs, count, _, completed, _, _, records⟩ := ends
    exact ⟨t, hx, records ▸ List.mem_append_right _ (mem_uninitRecords (count ▸ hj) unspecified), completed.done⟩

end Sys2Proof.Machine
end

section
/-! SUPPORT. The memory family (20_memory.md R43, R57, R104): noninterference. A command's outcome is a function of what its
row of R57 names, of BUF_SIZE, and of the cells it may read with the count of free values. -/

namespace Sys2Proof.Machine

open Sys2Proof

/-! ### Reads of two memories that agree where they are read -/

/-- Two results that differ in the recorded faults at most, with the same count of free values drawn. -/
structure SameUpToFaults {α : Type} (x y : α × Trail) : Prop where
  value : x.1 = y.1
  draws : x.2.draws = y.2.draws

theorem SameUpToFaults.map {α β : Type} {x y : α × Trail} (h : SameUpToFaults x y) (f : α → β) :
    SameUpToFaults (f x.1, x.2) (f y.1, y.2) :=
  ⟨congrArg f h.value, h.draws⟩

/-- Two memories read the same in a region. -/
def SameIn (m m' : Memory) (r : Region) : Prop := ∀ i, InRegion r i → memRead m i = memRead m' i

theorem SameIn.mono {m m' : Memory} {a n b k : Nat} (h : SameIn m m' ⟨a, n⟩) (lower : a ≤ b) (upper : b + k ≤ a + n) :
    SameIn m m' ⟨b, k⟩ :=
  fun i hi => h i ⟨Nat.le_trans lower hi.1, Nat.lt_of_lt_of_le hi.2 upper⟩

/-- The first cell of a region, and the rest of it. -/
theorem SameIn.uncons {m m' : Memory} {a n : Nat} (h : SameIn m m' ⟨a, n + 1⟩) :
    memRead m a = memRead m' a ∧ SameIn m m' ⟨a + 1, n⟩ :=
  ⟨h a ⟨Nat.le_refl _, Nat.lt_add_of_pos_right n.succ_pos⟩, h.mono (Nat.le_succ a) (by omega)⟩

section Reads

variable {m m' : Memory} {t t' : Trail}

theorem readCell_same {a : Nat} (cell : memRead m a = memRead m' a) (draws : t.draws = t'.draws) :
    SameUpToFaults (readCell m a t) (readCell m' a t') := by
  cases h : memRead m a with
  | none =>
    rw [readCell_of_none h, readCell_of_none (cell ▸ h)]
    exact ⟨congrArg Config.freeByte draws, congrArg Nat.succ draws⟩
  | some v =>
    rw [readCell_of_some h, readCell_of_some (cell ▸ h)]
    exact ⟨rfl, draws⟩

theorem readBytes_same {a n : Nat} (cells : SameIn m m' ⟨a, n⟩) (draws : t.draws = t'.draws) :
    SameUpToFaults (readBytes m a n t) (readBytes m' a n t') := by
  induction n generalizing a t t' with
  | zero => exact ⟨rfl, draws⟩
  | succ n ih =>
    obtain ⟨cell, rest⟩ := cells.uncons
    have first := readCell_same cell draws
    have others := ih rest first.draws
    exact ⟨congrArg₂ List.cons first.value others.value, others.draws⟩

theorem readBitsFrom_same {a j n : Nat} (cells : SameIn m m' ⟨a + j, n⟩) (draws : t.draws = t'.draws) :
    SameUpToFaults (readBitsFrom m a j n t) (readBitsFrom m' a j n t') := by
  induction n generalizing j t t' with
  | zero => exact ⟨rfl, draws⟩
  | succ n ih =>
    obtain ⟨cell, rest⟩ := cells.uncons
    have first := readCell_same cell draws
    have others := ih (j := j + 1) rest first.draws
    simp only [readBitsFrom, ← first.value]
    split
    · exact ⟨rfl, first.draws⟩
    · exact others.map (Except.map _)

theorem readBits_same {a n : Nat} (cells : SameIn m m' ⟨a, n⟩) (draws : t.draws = t'.draws) :
    SameUpToFaults (readBits m a n t) (readBits m' a n t') :=
  readBitsFrom_same (j := 0) cells draws

end Reads

/-! ### The outcome of a command over two such memories -/

theorem afterBits_same {go : List Bit → CmdOutcome} {x y : Except CmdError (List Bit) × Trail}
    (h : SameUpToFaults x y) : SameUpToFaults (afterBits go x) (afterBits go y) := by
  obtain ⟨x, t⟩ := x
  obtain ⟨y, t'⟩ := y
  obtain ⟨rfl, draws⟩ : x = y ∧ t.draws = t'.draws := ⟨h.value, h.draws⟩
  cases x <;> exact ⟨rfl, draws⟩

theorem afterChecks_same {cs : List (Option CmdError)} {t t' : Trail} {go go' : Trail → CmdOutcome × Trail}
    (draws : t.draws = t'.draws) (h : firstError cs = none → SameUpToFaults (go t) (go' t')) :
    SameUpToFaults (afterChecks cs t go) (afterChecks cs t' go') := by
  cases hc : firstError cs with
  | none =>
    rw [afterChecks_pass hc, afterChecks_pass hc]
    exact h hc
  | some e =>
    rw [afterChecks_error hc, afterChecks_error hc]
    exact ⟨rfl, draws⟩

/-- The state with another buffer and another trail. -/
def withMemory (s : State) (m : Memory) (t : Trail) : State := { s with buf := m, trail := t }

section Outcomes

variable {s : State} {m : Memory} {t : Trail}

theorem outcomeByteToBits_same (draws : s.trail.draws = t.draws) :
    SameUpToFaults (outcomeByteToBits s) (outcomeByteToBits (withMemory s m t)) :=
  afterChecks_same (cs := [checkRange s .dst, checkDst s 8]) draws fun _ => ⟨rfl, draws⟩

theorem outcomeU32ToBits_same (draws : s.trail.draws = t.draws) :
    SameUpToFaults (outcomeU32ToBits s) (outcomeU32ToBits (withMemory s m t)) :=
  afterChecks_same (cs := [checkRange s .dst, checkDst s 32]) draws fun _ => ⟨rfl, draws⟩

theorem outcomeBitsToByte_same (draws : s.trail.draws = t.draws) (src : SameIn s.buf m (regionOf s.opnd .src)) :
    SameUpToFaults (outcomeBitsToByte s) (outcomeBitsToByte (withMemory s m t)) := by
  rw [outcomeBitsToByte_eq, outcomeBitsToByte_eq]
  exact afterChecks_same draws fun _ => afterBits_same (readBits_same src draws)

theorem outcomeBitsToU32_same (draws : s.trail.draws = t.draws) (src : SameIn s.buf m (regionOf s.opnd .src)) :
    SameUpToFaults (outcomeBitsToU32 s) (outcomeBitsToU32 (withMemory s m t)) := by
  rw [outcomeBitsToU32_eq, outcomeBitsToU32_eq]
  refine afterChecks_same draws fun pass => ?_
  have len : s.opnd.srcLen.toNat = 32 := by
    simp only [firstError_eq_none, List.forall_mem_cons, raiseIf_none, bne_eq_false_iff_eq] at pass
    obtain ⟨_, len, _⟩ := pass
    exact len
  exact afterBits_same (readBits_same (src.mono (Nat.le_refl _) (Nat.add_le_add_left len.ge _)) draws)

theorem outcomeBitsToBytes_same (draws : s.trail.draws = t.draws) (src : SameIn s.buf m (regionOf s.opnd .src)) :
    SameUpToFaults (outcomeBitsToBytes s) (outcomeBitsToBytes (withMemory s m t)) := by
  rw [outcomeBitsToBytes_eq, outcomeBitsToBytes_eq]
  exact afterChecks_same draws fun _ => afterBits_same (readBits_same src draws)

theorem outcomeExtractLsb_same (draws : s.trail.draws = t.draws) (src : SameIn s.buf m (regionOf s.opnd .src)) :
    SameUpToFaults (outcomeExtractLsb s) (outcomeExtractLsb (withMemory s m t)) := by
  refine afterChecks_same (cs := srcDstChecks s s.opnd.srcLen.toNat) draws fun _ => ?_
  exact (readBytes_same src draws).map fun cs =>
    CmdOutcome.done 0 s.opnd.srcLen.toNat (writeBits s.opnd.dstAddr.toNat (lsbs cs))

theorem outcomeMakeBits_same (draws : s.trail.draws = t.draws) (src : SameIn s.buf m (regionOf s.opnd .src)) :
    SameUpToFaults (outcomeMakeBits s) (outcomeMakeBits (withMemory s m t)) := by
  refine afterChecks_same (cs := srcDstChecks s (8 * s.opnd.srcLen.toNat)) draws fun _ => ?_
  exact (readBytes_same src draws).map fun bs =>
    CmdOutcome.done 0 (8 * s.opnd.srcLen.toNat) (writeBits s.opnd.dstAddr.toNat (packBytes bs))

theorem outcomeEmbed_same (draws : s.trail.draws = t.draws) (src : SameIn s.buf m (regionOf s.opnd .src))
    (car : SameIn s.buf m (regionOf s.opnd .car)) :
    SameUpToFaults (outcomeEmbed s) (outcomeEmbed (withMemory s m t)) := by
  rw [outcomeEmbed_eq, outcomeEmbed_eq]
  refine afterChecks_same (cs := embedChecks s) draws fun pass => ?_
  obtain ⟨_, _, _, fits⟩ := embedChecks_none.1 pass
  have payload := readBytes_same src draws
  have carrier := readBytes_same (car.mono (Nat.le_refl _) (Nat.add_le_add_left fits _)) payload.draws
  have reads : SameUpToFaults (embedReads s s.trail) (embedReads (withMemory s m t) t) :=
    ⟨congrArg₂ Prod.mk payload.value carrier.value, carrier.draws⟩
  exact reads.map (embedDone s)

theorem extractPayload_same (n : Nat) {h h' : Trail} (draws : h.draws = h'.draws) (len : 32 ≤ s.opnd.carLen.toNat)
    (car : SameIn s.buf m (regionOf s.opnd .car)) :
    SameUpToFaults (extractPayload s n h) (extractPayload (withMemory s m t) n h') := by
  refine afterChecks_same (cs := payloadChecks s n) draws fun pass => ?_
  obtain ⟨fits, _⟩ := payloadChecks_none.1 pass
  have payload := readBytes_same (car.mono (k := n) (Nat.le_add_right _ 32) (by omega)) draws
  exact payload.map fun cs =>
    CmdOutcome.done n (ceilDiv n 8) (writeBytes s.opnd.dstAddr.toNat (unpackBytes (lsbs cs)))

theorem outcomeExtract_same (draws : s.trail.draws = t.draws) (car : SameIn s.buf m (regionOf s.opnd .car)) :
    SameUpToFaults (outcomeExtract s) (outcomeExtract (withMemory s m t)) := by
  rw [outcomeExtract_eq, outcomeExtract_eq]
  refine afterChecks_same (cs := extractChecks s) draws fun pass => ?_
  obtain ⟨_, _, _, len⟩ := extractChecks_none.1 pass
  have header : SameUpToFaults (extractHeader s s.trail) (extractHeader (withMemory s m t) t) :=
    readBytes_same (car.mono (Nat.le_refl _) (Nat.add_le_add_left len _)) draws
  simp only [header.value]
  exact extractPayload_same _ header.draws len car

/-- The outcome of a command rests on no cell but those it may read (R43, R57). -/
theorem outcomeOf_withMemory (i : Instr) (draws : s.trail.draws = t.draws)
    (cells : ∀ a, MayRead i s.opnd a → memRead s.buf a = memRead m a) :
    SameUpToFaults (outcomeOf i s) (outcomeOf i (withMemory s m t)) := by
  cases i with
  | byteToBits => exact outcomeByteToBits_same draws
  | bitsToByte => exact outcomeBitsToByte_same draws cells
  | u32ToBits => exact outcomeU32ToBits_same draws
  | bitsToU32 => exact outcomeBitsToU32_same draws cells
  | extractLsb => exact outcomeExtractLsb_same draws cells
  | bitsToBytes => exact outcomeBitsToBytes_same draws cells
  | makeBits => exact outcomeMakeBits_same draws cells
  | embed => exact outcomeEmbed_same draws (fun a ha => cells a (.inl ha)) fun a ha => cells a (.inr ha)
  | extract => exact outcomeExtract_same draws cells

end Outcomes

/-! ### The operands of a command -/

/-- A state with nothing but what a command's outcome can rest on: the operands of its row of R57, the buffer, the trail and
BUF_SIZE. -/
def inputsOf (i : Instr) (s : State) : State :=
  { State.reset with opnd := usedOperands i s.opnd, buf := s.buf, trail := s.trail, bufLast := s.bufLast }

theorem valueByte_usedOperands (o : OperandRegs) : valueByte (usedOperands .byteToBits o) = valueByte o :=
  setWidth_setWidth_byte _

theorem outcomeOf_inputsOf (i : Instr) (s : State) : outcomeOf i (inputsOf i s) = outcomeOf i s := by
  cases i with
  | byteToBits =>
    have value : valueByte (inputsOf .byteToBits s).opnd = valueByte s.opnd := valueByte_usedOperands s.opnd
    simp only [outcomeOf, outcomeByteToBits, value]
    rfl
  | _ => rfl

theorem mayRead_usedOperands (i : Instr) (o : OperandRegs) : MayRead i (usedOperands i o) = MayRead i o := by
  cases i <;> rfl

/-- Two states with the same inputs give a command the same outcome. -/
theorem outcomeOf_same {i : Instr} {s s' : State} (opnd : usedOperands i s.opnd = usedOperands i s'.opnd)
    (bufLast : s.bufLast = s'.bufLast) (draws : s.trail.draws = s'.trail.draws)
    (cells : ∀ a, MayRead i s.opnd a → memRead s.buf a = memRead s'.buf a) :
    SameUpToFaults (outcomeOf i s) (outcomeOf i s') := by
  have inputs : inputsOf i s' = withMemory (inputsOf i s) s'.buf s'.trail := by
    simp only [inputsOf, withMemory, opnd, bufLast]
  rw [← outcomeOf_inputsOf i s, ← outcomeOf_inputsOf i s', inputs]
  refine outcomeOf_withMemory i draws fun a ha => cells a ?_
  rwa [← mayRead_usedOperands]

/-! ### The state after the command -/

/-- The same writes leave cells that agreed in agreement. -/
theorem memRead_writeAll_same {m m' : Memory} {a : Nat} (h : memRead m a = memRead m' a) (ws : List (Nat × Byte)) :
    memRead (writeAll m ws) a = memRead (writeAll m' ws) a := by
  induction ws generalizing m m' with
  | nil => exact h
  | cons w ws ih =>
    refine ih ?_
    rw [memRead_memWrite, memRead_memWrite, h]

/-- Settles O34: after issue the registers are the same, so that the same outcome makes the same end of them. -/
theorem outcomeDependsOnlyOnInputs : Obligations.OutcomeDependsOnlyOnInputs := by
  intro i s s' t t' opnd bufLast draws cells hx hx'
  have same : SameUpToFaults (outcomeOf i (issueCommand (encode i) s)) (outcomeOf i (issueCommand (encode i) s')) :=
    outcomeOf_same opnd bufLast draws cells
  rw [exec_eq_finish] at hx hx'
  obtain rfl := Host.Outcome.next.inj hx
  obtain rfl := Host.Outcome.next.inj hx'
  generalize outcomeOf i (issueCommand (encode i) s) = x at same ⊢
  generalize outcomeOf i (issueCommand (encode i) s') = y at same ⊢
  obtain ⟨r, u⟩ := x
  obtain ⟨r', u'⟩ := y
  obtain ⟨rfl, hd⟩ : r = r' ∧ u.draws = u'.draws := ⟨same.value, same.draws⟩
  cases r with
  | done result resultLen writes => exact ⟨rfl, rfl, rfl, rfl, hd, fun a ha => memRead_writeAll_same ha writes⟩
  | error e => exact ⟨rfl, rfl, rfl, rfl, hd, fun a ha => ha⟩

end Sys2Proof.Machine
end

section
/-! SUPPORT. The encoding family (30_encoding.md): the command word as its two fields, the opcode map and its inverse,
the nine legal words, and the host's `poll`. -/

namespace Sys2Proof.Machine

open Sys2Proof

/-! ### The command word and its fields (R56, R58, R59) -/

/-- A command word is RSVD above OPCODE (R56). -/
theorem word_eq_append_iff (w : Word) (rsvd : BitVec 28) (op : BitVec 4) :
    w = rsvd ++ op ↔ w.extractLsb' 4 28 = rsvd ∧ w.extractLsb' 0 4 = op := by
  constructor
  · rintro rfl
    exact ⟨BitVec.extractLsb'_append_eq_left, BitVec.extractLsb'_append_eq_right⟩
  · rintro ⟨rfl, rfl⟩
    exact (BitVec.extractLsb'_append_extractLsb' (w := 28) (len := 4) (x := w)).symm

theorem decodeOpcode_opcode (i : Instr) : decodeOpcode (opcode i) = .ok i := by cases i <;> rfl

theorem eq_opcode_of_decodeOpcode {op : BitVec 4} {i : Instr} (h : decodeOpcode op = .ok i) : op = opcode i := by
  unfold decodeOpcode at h
  split at h <;> cases h <;> exact BitVec.eq_of_toNat_eq (by assumption)

/-- The opcode map of R58 and the opcode numbers are inverse to each other. -/
theorem decodeOpcode_eq_ok_iff (op : BitVec 4) (i : Instr) : decodeOpcode op = .ok i ↔ op = opcode i :=
  ⟨eq_opcode_of_decodeOpcode, fun h => h ▸ decodeOpcode_opcode i⟩

/-- A word decodes by its OPCODE if RSVD is 0, and to no command otherwise (R59). -/
theorem decode_eq_ok_iff (w : Word) (i : Instr) :
    decode w = .ok i ↔ w.extractLsb' 4 28 = 0#28 ∧ decodeOpcode (w.extractLsb' 0 4) = .ok i := by
  unfold decode
  split <;> simp [*]

/-- Settles O2: both sides say that RSVD is 0 and that OPCODE is the command's number. -/
theorem decodeEncodeAgree : Obligations.DecodeEncodeAgree := by
  intro w i
  calc decode w = .ok i
    _ ↔ w.extractLsb' 4 28 = 0#28 ∧ decodeOpcode (w.extractLsb' 0 4) = .ok i := decode_eq_ok_iff w i
    _ ↔ w.extractLsb' 4 28 = 0#28 ∧ w.extractLsb' 0 4 = opcode i := by rw [decodeOpcode_eq_ok_iff]
    _ ↔ w = encode i := (word_eq_append_iff w 0#28 (opcode i)).symm

theorem decode_encode (i : Instr) : decode (encode i) = .ok i := (decodeEncodeAgree _ i).2 rfl

/-! ### The nine legal words (R59, R60) -/

theorem encode_toNat_range (i : Instr) : 1 ≤ (encode i).toNat ∧ (encode i).toNat ≤ 9 := by cases i <;> decide

/-- Every number from 1 to 9 is a command's word. -/
theorem exists_encode_toNat {n : Nat} (lower : 1 ≤ n) (upper : n ≤ 9) : ∃ i, n = (encode i).toNat := by
  interval_cases n
  · exact ⟨.byteToBits, rfl⟩
  · exact ⟨.bitsToByte, rfl⟩
  · exact ⟨.u32ToBits, rfl⟩
  · exact ⟨.bitsToU32, rfl⟩
  · exact ⟨.extractLsb, rfl⟩
  · exact ⟨.bitsToBytes, rfl⟩
  · exact ⟨.makeBits, rfl⟩
  · exact ⟨.embed, rfl⟩
  · exact ⟨.extract, rfl⟩

/-- Settles O3: the legal words are the words of the nine commands, which are the numbers 1 to 9. -/
theorem legalWordsAreTheNine : Obligations.LegalWordsAreTheNine := by
  intro w
  constructor
  · rintro ⟨i, h⟩
    obtain rfl := (decodeEncodeAgree w i).1 h
    exact encode_toNat_range i
  · rintro ⟨lower, upper⟩
    obtain ⟨i, h⟩ := exists_encode_toNat lower upper
    exact ⟨i, (decodeEncodeAgree w i).2 (BitVec.eq_of_toNat_eq h)⟩

/-- Settles O1: the legal words are the commands' own words; the reserved ones are evaluated. -/
theorem opcodeMapDecodes : Obligations.OpcodeMapDecodes :=
  ⟨decode_encode .byteToBits, decode_encode .bitsToByte, decode_encode .u32ToBits, decode_encode .bitsToU32,
    decode_encode .extractLsb, decode_encode .bitsToBytes, decode_encode .makeBits, decode_encode .embed,
    decode_encode .extract, by decide⟩

/-! ### The poll (R62) -/

/-- A `poll` hands STATUS back, and stays in the program as long as bit 0 of that word is 1. -/
theorem hostMove_poll {s : State} {ops : List HostOp} (next : s.program = .poll :: ops) :
    hostMove s = handBack .csr (csrOffset .status) (statusWord s.status)
      { s with program := if (statusWord s.status).getLsbD 0 then s.program else ops } := by
  have read : readCsr .status s = statusWord s.status := rfl
  simp only [hostMove, next, hostRead_status, read]
  split
  · rw [← next]
  · rfl

/-- Settles O7: on the host's turn the step is the host's move, which is the poll. -/
theorem pollRepeatsStatusReads : Obligations.PollRepeatsStatusReads := by
  intro s ops next turn
  have next' : (takeTurn s).program = .poll :: ops := next
  simp only [step, whoMoves_eq_host.2 turn, hostMove_poll next']
  rfl

end Sys2Proof.Machine
end

section
/-! SUPPORT. The units family (40_units.md): every command's end (R75 to R77), and the five datapath units as what they do to
each Bit (R64 to R74). -/

namespace Sys2Proof.Machine

open Sys2Proof

/-! ### Commands (R75 to R77, R100, R103) -/

/-- Settles O28: a command ends in `raiseError` or in `complete`, and the code of an error is one of 1 to 9. -/
theorem everyCommandEnds : Obligations.EveryCommandEnds := by
  intro i s
  obtain ⟨t, h⟩ : ∃ t, exec i s = .next t := ⟨_, exec_eq_finish i s⟩
  refine ⟨t, h, ?_⟩
  obtain ⟨_, _, ⟨e, rfl⟩ | ⟨_, _, _, _, rfl⟩⟩ := exec_cases h
  · obtain ⟨nonzero, upper⟩ := errCodeBits_range e.code
    have lower : 1 ≤ (errCodeBits e.code).toNat :=
      Nat.one_le_iff_ne_zero.2 fun zero => nonzero (BitVec.eq_of_toNat_eq zero)
    exact ⟨rfl, rfl, fun _ => ⟨lower, upper⟩, fun noErr => Bool.noConfusion noErr⟩
  · exact ⟨rfl, rfl, fun err => Bool.noConfusion err, fun _ => rfl⟩

/-- Settles O33: `raiseError` writes STATUS and the error data alone, and `complete` sets no ERR. -/
theorem errorsArePrecise : Obligations.ErrorsArePrecise := by
  intro i s t h err
  obtain ⟨_, _, ⟨e, rfl⟩ | ⟨_, _, _, _, rfl⟩⟩ := exec_cases h
  · exact ⟨rfl, rfl, rfl, rfl, rfl, rfl, rfl⟩
  · exact Bool.noConfusion err

/-- While BUSY the engine moves next if its turn was given out, or if no turn is (log 6). -/
theorem whoMoves_eq_engine {s : State} (busy : s.status.busy = true) (turn : s.turns = [] ∨ s.turns.head? = some .engine) :
    whoMoves s = .engine := by
  cases h : s.turns <;> simp_all [whoMoves]

theorem engineStep_of_decode {s : State} {i : Instr} (h : decode s.opLatch = .ok i) : engineStep s = exec i s := by
  simp only [engineStep, h]

/-- Settles O4: on the engine's turn a step while BUSY is the engine step, which runs the command that OPLATCH decodes to. -/
theorem stepRunsTheLatchedCommand : Obligations.StepRunsTheLatchedCommand := by
  intro s busy turn
  have engine : step s = engineStep (takeTurn s) := by simp only [step, whoMoves_eq_engine busy turn, busy, if_true]
  exact ⟨engine, fun i h => engine.trans (engineStep_of_decode (s := takeTurn s) h)⟩

/-! ### The packers, element by element (R64 to R67) -/

theorem packByte_getElem? (b : Byte) {i : Nat} (h : i < 8) : (packByte b)[i]? = some (b.getLsbD (7 - i)) := by
  interval_cases i <;> rfl

theorem packWord_getElem? (v : Word) {i : Nat} (h : i < 32) : (packWord v)[i]? = some (v.getLsbD (31 - i)) := by
  have inside : i < (packWord v).length := by rwa [packWord_length]
  rw [List.getElem?_eq_getElem inside, packWord_getElem]

theorem packBytes_getElem? (bs : List Byte) {j k : Nat} (h : j < bs.length) (hk : k < 8) :
    (packBytes bs)[8 * j + k]? = some (bs[j].getLsbD (7 - k)) := by
  induction bs generalizing j with
  | nil => exact absurd h (Nat.not_lt_zero j)
  | cons b bs ih =>
    rw [packBytes_cons]
    cases j with
    | zero =>
      rw [List.getElem?_append_left (by rw [packByte_length]; omega), Nat.mul_zero, Nat.zero_add, packByte_getElem? b hk]
      rfl
    | succ j =>
      have past : 8 * (j + 1) + k - (packByte b).length = 8 * j + k := by rw [packByte_length]; omega
      rw [List.getElem?_append_right (by rw [packByte_length]; omega), past]
      exact ih (Nat.lt_of_succ_lt_succ h)

/-- Settles O49, by the two packers' elements. -/
theorem packersAreMsbFirst : Obligations.PackersAreMsbFirst :=
  ⟨fun b => ⟨packByte_length b, fun _ => packByte_getElem? b⟩,
    fun v => ⟨packWord_length v, fun _ => packWord_getElem? v⟩⟩

/-- Settles O50, by the elements of the joined bytes. -/
theorem packBytesJoinsTheBytes : Obligations.PackBytesJoinsTheBytes :=
  ⟨packBytes_nil, fun bs => ⟨packBytes_length bs, fun _ h _ => packBytes_getElem? bs h⟩⟩

/-- Settles O51: the header is `u32_to_bits` of the bit count, and BUF_SIZE bounds SRC_LEN by 2^28. -/
theorem frameIsHeaderThenPayload : Obligations.FrameIsHeaderThenPayload := by
  refine ⟨fun p _ => ⟨frame_length p, fun i hi => ?_, ?_⟩, fun s src => ?_⟩
  · have place : 31 - i < 32 := by omega
    rw [frame, List.getElem?_append_left (by rwa [packWord_length]), packWord_getElem? _ hi, BitVec.getLsbD_ofNat,
      decide_eq_true place, Bool.true_and]
  · exact List.drop_left' (packWord_length _)
  · have size := bufSize_le s
    omega

/-! ### The LSB units (R68 to R70) -/

/-- `embed_bit` as a number: neither the one more nor the one less wraps (R69). -/
theorem embedBit_toNat (c : Byte) (t : Bit) :
    (embedBit c t).toNat =
      if c.toNat % 2 = t.toNat then c.toNat else if c.toNat % 2 = 0 then c.toNat + 1 else c.toNat - 1 := by
  have bound : c.toNat < 256 := c.isLt
  unfold embedBit
  split
  · rfl
  · split <;> rw [BitVec.toNat_ofNat] <;> omega

theorem lsb_toNat (c : Byte) : (lsb c).toNat = c.toNat % 2 := by
  rw [lsb, BitVec.getLsbD, Nat.toNat_testBit, Nat.pow_zero, Nat.div_one]

/-- Settles O52: parity and bounds are read off the number. -/
theorem embedBitMovesByAtMostOne : Obligations.EmbedBitMovesByAtMostOne := by
  intro c t
  have value := embedBit_toNat c t
  have bit := Bool.toNat_le t
  have keeps : embedBit c (c.getLsbD 0) = c := if_pos (lsb_toNat c).symm
  refine ⟨value, ?_, ?_, ?_, keeps⟩ <;> split_ifs at value <;> omega

/-- Settles O53: bit 0 of a byte is its parity. -/
theorem lsbsAreParities : Obligations.LsbsAreParities :=
  ⟨fun c => ⟨lsb_toNat c, rfl⟩, rfl, fun cs => ⟨lsbs_length cs, fun i h => by simp [lsbs, h]⟩⟩

/-! ### The accumulator: its places, its sum and its bits (R71) -/

/-- The first of `n + 1` Bits stands `n` places up. -/
theorem accumulate_cons (b : Bit) (bits : List Bit) :
    accumulate (b :: bits) = (b.toNat <<< bits.length) + accumulate bits := by
  induction bits using List.reverseRecOn with
  | nil => simp [accumulate]
  | append_singleton bits c ih =>
    rw [← List.cons_append, accumulate_append_one, accumulate_append_one, ih, List.length_append, List.length_singleton,
      Nat.shiftLeft_succ]
    omega

theorem accumulate_eq_sum (bits : List Bit) :
    accumulate bits = ∑ i ∈ Finset.range bits.length, (bits.getD i false).toNat <<< (bits.length - 1 - i) := by
  induction bits with
  | nil => rfl
  | cons b bits ih =>
    rw [accumulate_cons, ih, List.length_cons, Finset.sum_range_succ', Nat.add_comm]
    simp [Nat.sub_sub, Nat.add_comm 1]

/-- The last Bit stands at place 0. -/
theorem accumulate_testBit (bits : List Bit) (k : Nat) : (accumulate bits).testBit k = bits.reverse.getD k false := by
  induction bits using List.reverseRecOn generalizing k with
  | nil => simp [accumulate]
  | append_singleton bits b ih =>
    have next : accumulate (bits ++ [b]) = Nat.bit b (accumulate bits) := by
      rw [accumulate_append_one, Nat.bit_val]
    rw [next, List.reverse_concat]
    cases k with
    | zero => exact Nat.testBit_bit_zero b _
    | succ k => rw [Nat.testBit_bit_succ, ih]; rfl

/-- Bit `i` of `n` stands at place `n - 1 - i`. -/
theorem accumulate_testBit_msb {bits : List Bit} {i : Nat} (h : i < bits.length) :
    (accumulate bits).testBit (bits.length - 1 - i) = bits.getD i false := by
  have mirrored : bits.length - 1 - (bits.length - 1 - i) = i := by omega
  rw [accumulate_testBit, List.getD_eq_getElem?_getD, List.getElem?_reverse (by omega), mirrored,
    List.getD_eq_getElem?_getD]

theorem accumulate_packWord (v : Word) : accumulate (packWord v) = v.toNat := by
  have bound : accumulate (packWord v) < 2 ^ 32 := packWord_length v ▸ accumulate_lt (packWord v)
  suffices same : BitVec.ofNat 32 (accumulate (packWord v)) = v by
    rw [← congrArg BitVec.toNat same, BitVec.toNat_ofNat, Nat.mod_eq_of_lt bound]
  refine BitVec.eq_of_getMsbD_eq fun i hi => ?_
  have bit := accumulate_testBit_msb (bits := packWord v) (i := i) (by rwa [packWord_length])
  rw [packWord_length, List.getD_eq_getElem?_getD, packWord_getElem? v hi] at bit
  have place : 32 - 1 - i < 32 := by omega
  rw [BitVec.getMsbD, BitVec.getMsbD, BitVec.getLsbD_ofNat, bit, decide_eq_true place, Bool.true_and]
  rfl

/-- Settles O54: each step of the accumulator moves the earlier Bits one place up, so that Bit `i` of 32 ends at `31 - i`. -/
theorem accumulateIsTheWeightedSum : Obligations.AccumulateIsTheWeightedSum := by
  refine ⟨fun bits len => ⟨?_, len ▸ accumulate_lt bits⟩, accumulate_packWord⟩
  have sum := accumulate_eq_sum bits
  rwa [len] at sum

/-! ### The bit unpacker: one byte (R72) -/

theorem chunkSum_eq_sum (i : Nat) (bits : List Bit) :
    chunkSum i bits = ∑ j ∈ Finset.range bits.length, (bits.getD j false).toNat <<< (7 - (i + j)) := by
  induction bits generalizing i with
  | nil => rfl
  | cons b bits ih =>
    rw [chunkSum, ih, List.length_cons, Finset.sum_range_succ', Nat.add_comm]
    simp [Nat.add_assoc, Nat.add_comm 1]

/-- A chunk from place `i` on is its Bits' number, moved up over the places it leaves empty. -/
theorem chunkSum_eq_accumulate {i : Nat} {bits : List Bit} (h : i + bits.length ≤ 8) :
    chunkSum i bits = accumulate bits <<< (8 - (i + bits.length)) := by
  induction bits generalizing i with
  | nil => simp [chunkSum, accumulate]
  | cons b bits ih =>
    rw [List.length_cons] at h
    have place : 7 - i = bits.length + (8 - (i + (bits.length + 1))) := by omega
    have rest : i + 1 + bits.length = i + (bits.length + 1) := by omega
    rw [chunkSum, ih (by omega), accumulate_cons, List.length_cons, rest, place, Nat.shiftLeft_add]
    simp only [Nat.shiftLeft_eq]
    ring

section Chunk

variable {bits : List Bit}

theorem chunkSum_zero_eq_accumulate (h : bits.length ≤ 8) : chunkSum 0 bits = accumulate bits <<< (8 - bits.length) := by
  rw [chunkSum_eq_accumulate (by rwa [Nat.zero_add]), Nat.zero_add]

/-- A chunk's number fits a byte. -/
theorem unpackByte_toNat (h : bits.length ≤ 8) : (unpackByte bits).toNat = chunkSum 0 bits := by
  have fits : chunkSum 0 bits < 2 ^ 8 :=
    calc chunkSum 0 bits
      _ = accumulate bits * 2 ^ (8 - bits.length) := by rw [chunkSum_zero_eq_accumulate h, Nat.shiftLeft_eq]
      _ < 2 ^ bits.length * 2 ^ (8 - bits.length) := Nat.mul_lt_mul_of_pos_right (accumulate_lt bits) (Nat.two_pow_pos _)
      _ = 2 ^ 8 := by rw [← Nat.pow_add, Nat.add_sub_cancel' h]
  rw [unpackByte, BitVec.toNat_ofNat, Nat.mod_eq_of_lt fits]

/-- Bit `k` of a chunk is bit `7 - k` of its byte, and the places past its end are 0. -/
theorem unpackByte_getLsbD (h : bits.length ≤ 8) {k : Nat} (hk : k < 8) :
    (unpackByte bits).getLsbD (7 - k) = bits.getD k false := by
  rw [BitVec.getLsbD, unpackByte_toNat h, chunkSum_zero_eq_accumulate h, Nat.testBit_shiftLeft]
  by_cases inside : k < bits.length
  · have above : 8 - bits.length ≤ 7 - k := by omega
    have place : 7 - k - (8 - bits.length) = bits.length - 1 - k := by omega
    rw [decide_eq_true above, Bool.true_and, place, accumulate_testBit_msb inside]
  · have below : ¬7 - k ≥ 8 - bits.length := by omega
    rw [decide_eq_false below, Bool.false_and, List.getD_eq_default _ _ (Nat.le_of_not_lt inside)]

end Chunk

/-- Two bytes are the same if they agree bit by bit, most significant first. -/
theorem byte_eq_of_msbFirst {b c : Byte} (h : ∀ k < 8, b.getLsbD (7 - k) = c.getLsbD (7 - k)) : b = c :=
  BitVec.eq_of_getMsbD_eq fun k hk => by rw [BitVec.getMsbD, BitVec.getMsbD, h k hk]

theorem unpackByte_packByte (b : Byte) : unpackByte (packByte b) = b :=
  byte_eq_of_msbFirst fun k hk => by
    rw [unpackByte_getLsbD (packByte_length b).le hk, List.getD_eq_getElem?_getD, packByte_getElem? b hk, Option.getD_some]

theorem packByte_unpackByte {bits : List Bit} (len : bits.length = 8) : packByte (unpackByte bits) = bits := by
  refine List.ext_getElem? fun k => ?_
  by_cases hk : k < 8
  · rw [packByte_getElem? _ hk, unpackByte_getLsbD len.le hk, List.getD_eq_getElem _ _ (len ▸ hk),
      List.getElem?_eq_getElem (len ▸ hk)]
  · rw [List.getElem?_eq_none (by rw [packByte_length]; omega), List.getElem?_eq_none (by omega)]

/-- Settles O55: the sum over a chunk does not wrap, and each Bit of it is a bit of the byte. -/
theorem unpackByteIsTheWeightedSum : Obligations.UnpackByteIsTheWeightedSum := by
  refine ⟨fun bits h => ?_, rfl, rfl, rfl, unpackByte_packByte, fun _ => packByte_unpackByte⟩
  rw [unpackByte_toNat h, chunkSum_eq_sum]
  simp only [Nat.zero_add]

/-! ### The bit unpacker over a list (R73, R74) -/

theorem unpackBytes_getLsbD {bits : List Bit} {j k : Nat} (h : j < (unpackBytes bits).length) (hk : k < 8) :
    (unpackBytes bits)[j].getLsbD (7 - k) = bits.getD (8 * j + k) false := by
  have byte : (unpackBytes bits)[j] = unpackByte ((bits.drop (8 * j)).take 8) := by simp [unpackBytes]
  rw [byte, unpackByte_getLsbD (List.length_take_le _ _) hk, List.getD_eq_getElem?_getD, List.getElem?_take_of_lt hk,
    List.getElem?_drop, List.getD_eq_getElem?_getD]

/-- Settles O56: byte `j` is the byte of chunk `j`. -/
theorem unpackBytesTakesChunksOfEight : Obligations.UnpackBytesTakesChunksOfEight :=
  fun bits => ⟨unpackBytes_length bits, fun _ h _ => unpackBytes_getLsbD h⟩

theorem unpackBytes_packBytes (bs : List Byte) : unpackBytes (packBytes bs) = bs := by
  refine List.ext_getElem ?_ fun j h h' => byte_eq_of_msbFirst fun k hk => ?_
  · rw [unpackBytes_length, packBytes_length, ceilDiv]
    omega
  · rw [unpackBytes_getLsbD h hk, List.getD_eq_getElem?_getD, packBytes_getElem? bs h' hk, Option.getD_some]

/-- A list of whole chunks loses nothing in its bytes. -/
theorem packBytes_unpackBytes {bits : List Bit} (whole : bits.length % 8 = 0) : packBytes (unpackBytes bits) = bits := by
  have len : (unpackBytes bits).length = bits.length / 8 := by
    rw [unpackBytes_length, ceilDiv]
    omega
  refine List.ext_getElem? fun i => ?_
  by_cases hi : i < bits.length
  · have byte : i / 8 < (unpackBytes bits).length := by omega
    have bit : i % 8 < 8 := Nat.mod_lt i (by decide)
    have packed := packBytes_getElem? (unpackBytes bits) byte bit
    rw [unpackBytes_getLsbD byte bit, Nat.div_add_mod] at packed
    rw [packed, List.getD_eq_getElem _ _ hi, List.getElem?_eq_getElem hi]
  · rw [List.getElem?_eq_none (by rw [packBytes_length]; omega), List.getElem?_eq_none (by omega)]

/-- Settles O57: each law compares element by element. -/
theorem unitsRoundTrip : Obligations.UnitsRoundTrip :=
  ⟨unpackByte_packByte, accumulate_packWord, unpackBytes_packBytes, fun _ => packBytes_unpackBytes⟩

end Sys2Proof.Machine
end

section
/-! SUPPORT. The BitCodec family (41_bitcodec.md): the two ends of a command whose reads are all specified, the first
failed check of each list of checks, and the seven commands whole (R82 to R88). -/

namespace Sys2Proof.Machine

open Sys2Proof

/-! ### The ends of a command that reads no unspecified cell (R75 to R77) -/

section Ends

variable {i : Instr} {s : State}

theorem exec_succeeds {r n a : Nat} {bs : List Byte}
    (outcome : outcomeOf i s = (.done r n (writeBytes a bs), s.trail)) (hr : r < 2 ^ 32) (hn : n < 2 ^ 32) :
    ∃ t, exec i s = .next t ∧ Succeeded r n a bs s t :=
  ⟨_, exec_of_outcome outcome, completedWith_complete hr hn _ s.trail s, holdsBytes_writeBytes bs s.buf a,
    sameOutside_writeBytes bs s.buf a, rfl⟩

theorem exec_fails {c : ErrCode} {a b : Nat} (outcome : outcomeOf i s = (.error ⟨c, a, b⟩, s.trail)) (ha : a < 2 ^ 32)
    (hb : b < 2 ^ 32) : ∃ t, exec i s = .next t ∧ FailedWith (errCodeBits c).toNat a b s t :=
  ⟨_, exec_of_outcome outcome, finish_error c ha hb s.trail s⟩

/-- A command ends in its first failed check, with nothing read (R102). -/
theorem exec_fails_check {cs : List (Option CmdError)} {go : Trail → CmdOutcome × Trail} {c : ErrCode} {a b : Nat}
    (outcome : outcomeOf i s = afterChecks cs s.trail go) (first : firstError cs = some ⟨c, a, b⟩) (ha : a < 2 ^ 32)
    (hb : b < 2 ^ 32) : ∃ t, exec i s = .next t ∧ FailedWith (errCodeBits c).toNat a b s t :=
  exec_fails (outcome.trans (afterChecks_error first _ _)) ha hb

/-- A bit reader goes on with the Bits that its cells hold (R80). -/
theorem outcomeOf_of_holdsBits {go : List Bit → CmdOutcome} {n : Nat} {bits : List Bit}
    (outcome : outcomeOf i s = afterBits go (readBits s.buf s.opnd.srcAddr.toNat n s.trail))
    (holds : HoldsBits s.buf s.opnd.srcAddr.toNat bits) (len : bits.length = n) :
    outcomeOf i s = (go bits, s.trail) := by
  subst len
  rw [outcome, readBits_of_holds holds]
  rfl

/-- A bit reader ends in BADBIT at the first bit-byte above 1 (R80). -/
theorem exec_fails_badBit {go : List Bit → CmdOutcome} {n : Nat} {pre : List Bit} {v : Byte}
    (outcome : outcomeOf i s = afterBits go (readBits s.buf s.opnd.srcAddr.toNat n s.trail))
    (holds : HoldsBits s.buf s.opnd.srcAddr.toNat pre)
    (cell : memRead s.buf (s.opnd.srcAddr.toNat + pre.length) = some v) (bad : 1 < v.toNat)
    (short : pre.length < n) (hn : n < 2 ^ 32) :
    ∃ t, exec i s = .next t ∧ FailedWith 9 pre.length v.toNat s t := by
  rw [readBits_badBit holds cell bad short] at outcome
  exact exec_fails (c := .badBit) outcome (Nat.lt_trans short hn) (Nat.lt_trans v.isLt (by decide))

end Ends

/-! ### The first failed check (R78, R79, R102) -/

section Checks

variable {s : State} {need : Nat}

theorem checkRange_src_none (src : srcOk s) : checkRange s .src = none := checkRange_none.2 src

theorem checkRange_dst_none (dst : dstOk s) : checkRange s .dst = none := checkRange_none.2 dst

theorem firstError_range_src (src : ¬srcOk s) (cs : List (Option CmdError)) :
    firstError (checkRange s .src :: cs) = some ⟨.range, 1, 0⟩ := by
  rw [checkRange_some (n := .src) src]
  rfl

theorem firstError_range_dst (dst : ¬dstOk s) (cs : List (Option CmdError)) :
    firstError (checkRange s .dst :: cs) = some ⟨.range, 2, 0⟩ := by
  rw [checkRange_some (n := .dst) dst]
  rfl

/-- The checks of the commands from VALUE to DST, for `need` bytes written (R82, R84). -/
def dstChecks (s : State) (need : Nat) : List (Option CmdError) := [checkRange s .dst, checkDst s need]

theorem dstChecks_none (dst : dstOk s) (fits : need ≤ s.opnd.dstLen.toNat) : firstError (dstChecks s need) = none := by
  rw [dstChecks, checkRange_dst_none dst, checkDst_none.2 fits]
  rfl

theorem dstChecks_small (dst : dstOk s) (small : s.opnd.dstLen.toNat < need) :
    firstError (dstChecks s need) = some ⟨.dstSmall, need, s.opnd.dstLen.toNat⟩ := by
  rw [dstChecks, checkRange_dst_none dst, checkDst_some small]
  rfl

/-- The checks of the commands from SRC to RESULT: a `bad` length is not the `want`ed one (R83, R85). -/
theorem srcLengthChecks_length {bad : Bool} (src : srcOk s) (isBad : bad = true) (want : Nat) :
    firstError [checkRange s .src, raiseIf bad .length want s.opnd.srcLen.toNat] =
      some ⟨.length, want, s.opnd.srcLen.toNat⟩ := by
  rw [checkRange_src_none src, raiseIf_of_true isBad]
  rfl

theorem srcDstChecks_range_dst (src : srcOk s) (dst : ¬dstOk s) :
    firstError (srcDstChecks s need) = some ⟨.range, 2, 0⟩ := by
  rw [srcDstChecks, checkRange_src_none src, firstError_none, firstError_range_dst dst]

theorem srcDstChecks_overlap (src : srcOk s) (dst : dstOk s)
    (shared : ¬ShareNone (regionOf s.opnd .src) (regionOf s.opnd .dst)) :
    firstError (srcDstChecks s need) = some ⟨.overlap, 1, 2⟩ := by
  rw [srcDstChecks, checkRange_src_none src, checkRange_dst_none dst, checkOverlap_some shared]
  rfl

theorem srcDstChecks_small (src : srcOk s) (dst : dstOk s)
    (apart : ShareNone (regionOf s.opnd .src) (regionOf s.opnd .dst)) (small : s.opnd.dstLen.toNat < need) :
    firstError (srcDstChecks s need) = some ⟨.dstSmall, need, s.opnd.dstLen.toNat⟩ := by
  rw [srcDstChecks, checkRange_src_none src, checkRange_dst_none dst, checkOverlap_none.2 apart, checkDst_some small]
  rfl

end Checks

/-! ### A command from VALUE to DST, whole -/

theorem outcomeByteToBits_eq (s : State) :
    outcomeByteToBits s = afterChecks (dstChecks s 8) s.trail fun t =>
      (.done 0 8 (writeBits s.opnd.dstAddr.toNat (packByte (valueByte s.opnd))), t) := rfl

theorem outcomeU32ToBits_eq (s : State) :
    outcomeU32ToBits s = afterChecks (dstChecks s 32) s.trail fun t =>
      (.done 0 32 (writeBits s.opnd.dstAddr.toNat (packWord s.opnd.value)), t) := rfl

/-- A command that reads no cell stores its bytes at DST, or ends in the first failed check of DST (R82, R84). -/
theorem exec_valueToDst {i : Instr} {s : State} {n : Nat} {bs : List Byte}
    (outcome : outcomeOf i s = afterChecks (dstChecks s n) s.trail fun t =>
      (.done 0 n (writeBytes s.opnd.dstAddr.toNat bs), t)) (hn : n < 2 ^ 32) :
    (dstOk s → n ≤ s.opnd.dstLen.toNat → ∃ t, exec i s = .next t ∧ Succeeded 0 n s.opnd.dstAddr.toNat bs s t) ∧
      (¬dstOk s → ∃ t, exec i s = .next t ∧ FailedWith 5 2 0 s t) ∧
      (dstOk s → s.opnd.dstLen.toNat < n → ∃ t, exec i s = .next t ∧ FailedWith 8 n s.opnd.dstLen.toNat s t) := by
  refine ⟨fun dst fits => ?_, fun dst => ?_, fun dst small => ?_⟩
  · exact exec_succeeds (outcome.trans (afterChecks_pass (dstChecks_none dst fits) _ _)) (by decide) hn
  · exact exec_fails_check outcome (firstError_range_dst dst _) (by decide) (by decide)
  · exact exec_fails_check outcome (dstChecks_small dst small) hn s.opnd.dstLen.isLt

/-! ### The errors of a command from SRC to DST, in the order of R102 -/

section SrcDst

variable {i : Instr} {s : State} {need : Nat} {go : Trail → CmdOutcome × Trail}

theorem exec_srcDst_range_src (outcome : outcomeOf i s = afterChecks (srcDstChecks s need) s.trail go)
    (src : ¬srcOk s) :
    ∃ t, exec i s = .next t ∧ FailedWith 5 1 0 s t :=
  exec_fails_check outcome (firstError_range_src src _) (by decide) (by decide)

theorem exec_srcDst_range_dst (outcome : outcomeOf i s = afterChecks (srcDstChecks s need) s.trail go) (src : srcOk s)
    (dst : ¬dstOk s) : ∃ t, exec i s = .next t ∧ FailedWith 5 2 0 s t :=
  exec_fails_check outcome (srcDstChecks_range_dst src dst) (by decide) (by decide)

theorem exec_srcDst_overlap (outcome : outcomeOf i s = afterChecks (srcDstChecks s need) s.trail go) (src : srcOk s)
    (dst : dstOk s) (shared : ¬ShareNone (regionOf s.opnd .src) (regionOf s.opnd .dst)) :
    ∃ t, exec i s = .next t ∧ FailedWith 6 1 2 s t :=
  exec_fails_check outcome (srcDstChecks_overlap src dst shared) (by decide) (by decide)

theorem exec_srcDst_small (outcome : outcomeOf i s = afterChecks (srcDstChecks s need) s.trail go)
    (bound : srcOk s → need < 2 ^ 32) (src : srcOk s) (dst : dstOk s)
    (apart : ShareNone (regionOf s.opnd .src) (regionOf s.opnd .dst)) (small : s.opnd.dstLen.toNat < need) :
    ∃ t, exec i s = .next t ∧ FailedWith 8 need s.opnd.dstLen.toNat s t :=
  exec_fails_check outcome (srcDstChecks_small src dst apart small) (bound src) s.opnd.dstLen.isLt

end SrcDst

theorem outcomeExtractLsb_eq (s : State) :
    outcomeExtractLsb s = afterChecks (srcDstChecks s s.opnd.srcLen.toNat) s.trail fun t =>
      let cs := readBytes s.buf s.opnd.srcAddr.toNat s.opnd.srcLen.toNat t
      (.done 0 s.opnd.srcLen.toNat (writeBits s.opnd.dstAddr.toNat (lsbs cs.1)), cs.2) := rfl

theorem outcomeMakeBits_eq (s : State) :
    outcomeMakeBits s = afterChecks (srcDstChecks s (8 * s.opnd.srcLen.toNat)) s.trail fun t =>
      let bs := readBytes s.buf s.opnd.srcAddr.toNat s.opnd.srcLen.toNat t
      (.done 0 (8 * s.opnd.srcLen.toNat) (writeBits s.opnd.dstAddr.toNat (packBytes bs.1)), bs.2) := rfl

/-- A SRC region in the buffer has at most 2^28 bytes, whose bits a 32-bit register can count (R8). -/
theorem srcBits_lt {s : State} (src : srcOk s) : 8 * s.opnd.srcLen.toNat < 2 ^ 32 := by
  have size := bufSize_le s
  omega

/-! ### The statements -/

/-- Settles O31: a completion of these two writes at most 0 bytes, and an error writes none. -/
theorem resultCommandsStoreNothing : Obligations.ResultCommandsStoreNothing := by
  intro i s t hi h a
  have noRoom : (storeRegion i s).len = 0 := by fin_cases hi <;> rfl
  obtain ⟨_, _, ⟨e, rfl⟩ | ⟨r, bs, fits, _, rfl⟩⟩ := exec_cases h
  · rfl
  · obtain rfl : bs = [] := List.eq_nil_of_length_eq_zero (Nat.le_zero.1 (noRoom ▸ fits))
    rfl

/-- Settles O35: 8 bit-bytes stored behind the checks of DST. -/
theorem byteToBitsWritesTheBits : Obligations.ByteToBitsWritesTheBits :=
  ⟨decode_encode .byteToBits, fun s => exec_valueToDst (outcomeByteToBits_eq s) (by decide)⟩

/-- Settles O37: 32 bit-bytes stored behind the checks of DST. -/
theorem u32ToBitsWritesTheBits : Obligations.U32ToBitsWritesTheBits :=
  ⟨decode_encode .u32ToBits, fun s => exec_valueToDst (outcomeU32ToBits_eq s) (by decide)⟩

/-- Settles O36: two checks, then the end of a bit reader. -/
theorem bitsToByteGivesTheByte : Obligations.BitsToByteGivesTheByte := by
  refine ⟨decode_encode .bitsToByte, fun s => ?_⟩
  have checks : outcomeOf .bitsToByte s = _ := outcomeBitsToByte_eq s
  have passed (src : srcOk s) (fits) : outcomeOf .bitsToByte s = _ := outcomeBitsToByte_pass src fits
  refine ⟨fun bits holds len src fits => ?_, fun src => ?_, fun src long => ?_,
    fun pre v holds cell bad short src fits => ?_⟩
  · have value : (unpackByte bits).toNat < 2 ^ 32 := Nat.lt_trans (unpackByte bits).isLt (by decide)
    exact exec_succeeds (outcomeOf_of_holdsBits (passed src fits) holds len) value (by decide)
  · exact exec_fails_check checks (firstError_range_src src _) (by decide) (by decide)
  · exact exec_fails_check checks (srcLengthChecks_length src (decide_eq_true long) 8) (by decide) s.opnd.srcLen.isLt
  · exact exec_fails_badBit (passed src fits) holds cell bad short s.opnd.srcLen.isLt

/-- Settles O38: two checks, then the end of a bit reader; 32 Bits accumulate to a 32-bit number. -/
theorem bitsToU32GivesTheValue : Obligations.BitsToU32GivesTheValue := by
  refine ⟨decode_encode .bitsToU32, fun s => ?_⟩
  have checks : outcomeOf .bitsToU32 s = _ := outcomeBitsToU32_eq s
  have passed (src : srcOk s) (exact) : outcomeOf .bitsToU32 s = _ := outcomeBitsToU32_pass src exact
  refine ⟨fun bits holds len src exact => ?_, fun src => ?_, fun src other => ?_,
    fun pre v holds cell bad short src exact => ?_⟩
  · have value : accumulate bits < 2 ^ 32 := len ▸ accumulate_lt bits
    exact exec_succeeds (outcomeOf_of_holdsBits (passed src exact) holds len) value (by decide)
  · exact exec_fails_check checks (firstError_range_src src _) (by decide) (by decide)
  · exact exec_fails_check checks (srcLengthChecks_length src (bne_iff_ne.2 other) 32) (by decide) s.opnd.srcLen.isLt
  · exact exec_fails_badBit (passed src exact) holds cell bad short (by decide)

/-- Settles O39: the bytes read are those that the SRC cells hold. -/
theorem extractLsbWritesTheLsbs : Obligations.ExtractLsbWritesTheLsbs := by
  refine ⟨decode_encode .extractLsb, fun s => ?_⟩
  have checks : outcomeOf .extractLsb s = _ := outcomeExtractLsb_eq s
  refine ⟨fun cs holds len src dst apart fits => ?_, exec_srcDst_range_src checks, exec_srcDst_range_dst checks,
    exec_srcDst_overlap checks, exec_srcDst_small checks fun _ => s.opnd.srcLen.isLt⟩
  have outcome := outcomeExtractLsb_pass src dst apart (len ▸ fits)
  rw [← len, readBytes_of_holds holds] at outcome
  exact exec_succeeds outcome (by decide) (len ▸ s.opnd.srcLen.isLt)

/-- Settles O40: four checks, then the end of a bit reader. -/
theorem bitsToBytesWritesTheBytes : Obligations.BitsToBytesWritesTheBytes := by
  refine ⟨decode_encode .bitsToBytes, fun s => ?_⟩
  have checks : outcomeOf .bitsToBytes s = _ := outcomeBitsToBytes_eq s
  have passed (src : srcOk s) (dst) (apart) (fits) : outcomeOf .bitsToBytes s = _ :=
    outcomeBitsToBytes_pass src dst apart fits
  have bytes : ceilDiv s.opnd.srcLen.toNat 8 < 2 ^ 32 := Nat.lt_of_le_of_lt (ceilDiv_le _) s.opnd.srcLen.isLt
  refine ⟨fun bits holds len src dst apart fits => ?_, exec_srcDst_range_src checks, exec_srcDst_range_dst checks,
    exec_srcDst_overlap checks, exec_srcDst_small checks fun _ => bytes,
    fun pre v holds cell bad short src dst apart fits => ?_⟩
  · have outcome := outcomeOf_of_holdsBits (passed src dst apart (len ▸ fits)) holds len
    rw [← len] at outcome bytes
    exact exec_succeeds outcome (by decide) bytes
  · exact exec_fails_badBit (passed src dst apart fits) holds cell bad short s.opnd.srcLen.isLt

/-- Settles O41: the bytes read are those that the SRC cells hold. -/
theorem makeBitsWritesTheBits : Obligations.MakeBitsWritesTheBits := by
  refine ⟨decode_encode .makeBits, fun s => ?_⟩
  have checks : outcomeOf .makeBits s = _ := outcomeMakeBits_eq s
  refine ⟨fun bs holds len src dst apart fits => ?_, exec_srcDst_range_src checks, exec_srcDst_range_dst checks,
    exec_srcDst_overlap checks, exec_srcDst_small checks srcBits_lt⟩
  have outcome := outcomeMakeBits_pass src dst apart (len ▸ fits)
  rw [← len, readBytes_of_holds holds] at outcome
  exact exec_succeeds outcome (by decide) (len ▸ srcBits_lt src)

end Sys2Proof.Machine
end

section
/-! SUPPORT. The Embedder family (42_embedder.md): EMBED whole, the cells it can write, and the wire format that it leaves
in the LSBs of the carrier (R89 to R93). -/

namespace Sys2Proof.Machine

open Sys2Proof

/-! ### The checks of EMBED, in the order of R89 -/

section Checks

variable {s : State}

theorem checkRange_car_none (car : carOk s) : checkRange s .car = none := checkRange_none.2 car

theorem embedChecks_range_car (src : srcOk s) (car : ¬carOk s) : firstError (embedChecks s) = some ⟨.range, 3, 0⟩ := by
  rw [embedChecks, checkRange_src_none src, checkRange_some (n := .car) car]
  rfl

theorem embedChecks_overlap (src : srcOk s) (car : carOk s)
    (shared : ¬ShareNone (regionOf s.opnd .src) (regionOf s.opnd .car)) :
    firstError (embedChecks s) = some ⟨.overlap, 1, 3⟩ := by
  rw [embedChecks, checkRange_src_none src, checkRange_car_none car, checkOverlap_some shared]
  rfl

theorem embedChecks_capacity (src : srcOk s) (car : carOk s)
    (apart : ShareNone (regionOf s.opnd .src) (regionOf s.opnd .car))
    (small : s.opnd.carLen.toNat < frameLen s.opnd.srcLen.toNat) :
    firstError (embedChecks s) =
      some ⟨.insufficientCapacity, frameLen s.opnd.srcLen.toNat, s.opnd.carLen.toNat⟩ := by
  rw [embedChecks, checkRange_src_none src, checkRange_car_none car, checkOverlap_none.2 apart,
    raiseIf_of_true (decide_eq_true small)]
  rfl

/-- The frame of a payload in the buffer has a length that a 32-bit register can count (R8). -/
theorem frameLen_lt (src : srcOk s) : frameLen s.opnd.srcLen.toNat < 2 ^ 32 := by
  have size := bufSize_le s
  rw [frameLen]
  omega

end Checks

/-- EMBED ends in the error of a check, with nothing else done, or all its checks passed (R102). -/
theorem exec_embed_cases {s t : State} (h : exec .embed s = .next t) :
    (∃ e, t = raiseError e s) ∨ firstError (embedChecks s) = none := by
  cases first : firstError (embedChecks s) with
  | none => exact .inr rfl
  | some e =>
    have stopped : exec .embed s = .next (raiseError e s) :=
      exec_of_outcome (i := .embed) ((outcomeEmbed_eq s).trans (afterChecks_error first _ _))
    exact .inl ⟨e, Host.Outcome.next.inj (h.symm.trans stopped)⟩

/-! ### The cells that EMBED writes (R91) -/

/-- A payload cell lies outside the frame's cells, which all lie in CAR. -/
theorem src_outside_frame {s : State} {a : Nat} (apart : ShareNone (regionOf s.opnd .src) (regionOf s.opnd .car))
    (fits : frameLen s.opnd.srcLen.toNat ≤ s.opnd.carLen.toNat) (payload : InRegion (regionOf s.opnd .src) a) :
    ¬(s.opnd.carAddr.toNat ≤ a ∧ a < s.opnd.carAddr.toNat + frameLen s.opnd.srcLen.toNat) :=
  fun ⟨lower, upper⟩ => apart a ⟨payload, lower, Nat.lt_of_lt_of_le upper (Nat.add_le_add_left fits _)⟩

/-- Settles O32: an error leaves the buffer; a completion (O47) writes the frame's cells, none of which is in SRC. -/
theorem embedWritesOnlyTheFramesCells : Obligations.EmbedWritesOnlyTheFramesCells := by
  intro s t h
  rcases exec_embed_cases h with ⟨e, rfl⟩ | passed
  · exact ⟨fun _ _ => rfl, fun _ _ => rfl⟩
  · obtain ⟨src, car, apart, fits⟩ := embedChecks_none.1 passed
    obtain ⟨t', _, _, ends, _, _, _, _, _, _, outside, _⟩ := (unspecifiedBytesAreFree s src).2.2 car apart fits
    obtain rfl : t' = t := Host.Outcome.next.inj (ends.symm.trans h)
    exact ⟨outside, fun a payload => outside a (src_outside_frame apart fits payload)⟩

/-! ### EMBED, whole (R89) -/

/-- EMBED reads the bytes that the cells of the payload and of the carrier hold. -/
theorem embedReads_of_holds {s : State} {p cs : List Byte} (payload : HoldsBytes s.buf s.opnd.srcAddr.toNat p)
    (len : p.length = s.opnd.srcLen.toNat) (carrier : HoldsBytes s.buf s.opnd.carAddr.toNat cs)
    (covered : cs.length = frameLen p.length) (t : Trail) : embedReads s t = ((p, cs), t) := by
  simp only [embedReads, ← len, ← covered, readBytes_of_holds payload, readBytes_of_holds carrier]

/-- Settles O42: the four checks in order, then the bytes read are those that the cells hold. -/
theorem embedWritesTheFrame : Obligations.EmbedWritesTheFrame := by
  refine ⟨decode_encode .embed, fun s => ?_⟩
  have checks : outcomeOf .embed s = _ := outcomeEmbed_eq s
  refine ⟨fun p cs payload len carrier covered src car apart fits => ?_, fun src => ?_, fun src car => ?_,
    fun src car shared => ?_, fun src car apart small => ?_⟩
  · have outcome := outcomeEmbed_pass src car apart (len ▸ fits)
    rw [embedReads_of_holds payload len carrier covered, embedDone, ← len] at outcome
    exact exec_succeeds outcome (len ▸ srcBits_lt src) (Nat.lt_of_le_of_lt fits s.opnd.carLen.isLt)
  · exact exec_fails_check checks (firstError_range_src src _) (by decide) (by decide)
  · exact exec_fails_check checks (embedChecks_range_car src car) (by decide) (by decide)
  · exact exec_fails_check checks (embedChecks_overlap src car shared) (by decide) (by decide)
  · exact exec_fails_check checks (embedChecks_capacity src car apart small) (frameLen_lt src) s.opnd.carLen.isLt

/-- An EMBED that is done over specified cells passed its checks, so it wrote the frame. -/
theorem embed_done_succeeded {s t : State} {p cs : List Byte} (payload : HoldsBytes s.buf s.opnd.srcAddr.toNat p)
    (len : p.length = s.opnd.srcLen.toNat) (carrier : HoldsBytes s.buf s.opnd.carAddr.toNat cs)
    (covered : cs.length = frameLen p.length) (h : exec .embed s = .next t) (done : t.status.done = true) :
    Succeeded (8 * p.length) (frameLen p.length) s.opnd.carAddr.toNat (embedFrame cs (frame p)) s t := by
  rcases exec_embed_cases h with ⟨e, rfl⟩ | passed
  · exact Bool.noConfusion done
  · obtain ⟨src, car, apart, fits⟩ := embedChecks_none.1 passed
    obtain ⟨t', ends, succeeded⟩ :=
      (embedWritesTheFrame.2 s).1 p cs payload len carrier covered src car apart (len ▸ fits)
    obtain rfl : t' = t := Host.Outcome.next.inj (ends.symm.trans h)
    exact succeeded

/-! ### The wire format (R93) -/

/-- Behind the header a frame holds the payload's bits (R67). -/
theorem frame_payload_getElem? {p : List Byte} (bound : 8 * p.length ≤ 2 ^ 32 - 1) {j k : Nat} (hj : j < p.length)
    (hk : k < 8) : (frame p)[32 + 8 * j + k]? = some (p[j].getLsbD (7 - k)) := by
  obtain ⟨_, _, behindHeader⟩ := frameIsHeaderThenPayload.1 p bound
  rw [← packBytes_getElem? p hj hk, ← behindHeader, List.getElem?_drop, Nat.add_assoc]

/-- Cells that hold an embedded frame: each is the carrier's byte with the frame's bit. -/
theorem HoldsBytes.embedded {m : Memory} {a i : Nat} {cs : List Byte} {fr : List Bit} {b : Bit}
    (holds : HoldsBytes m a (embedFrame cs fr)) (hi : i < cs.length) (bit : fr[i]? = some b) :
    memRead m (a + i) = some (embedBit cs[i] b) := by
  obtain ⟨hb, rfl⟩ := List.getElem?_eq_some_iff.1 bit
  rw [holds i (by rw [embedFrame, List.length_zipWith]; omega)]
  simp [embedFrame]

theorem embedBit_parity (c : Byte) (b : Bit) : (embedBit c b).toNat % 2 = b.toNat :=
  (embedBitMovesByAtMostOne c b).2.1

/-- Settles O43: each cell of the frame is `embed_bit` of the old byte, which takes the frame's bit and moves by at most 1. -/
theorem embedLeavesTheWireFormat : Obligations.EmbedLeavesTheWireFormat := by
  intro s t p cs payload len carrier covered h done
  obtain ⟨completed, stored, _, _⟩ := embed_done_succeeded payload len carrier covered h done
  have bound : 8 * p.length ≤ 2 ^ 32 - 1 := Nat.le_pred_of_lt (completed.result ▸ t.res.result.isLt)
  obtain ⟨frameLength, header, _⟩ := frameIsHeaderThenPayload.1 p bound
  refine ⟨fun i hi => ?_, fun j hj k hk => ?_, fun i hi => ?_⟩
  · refine ⟨_, stored.embedded (by omega) (header i hi), ?_⟩
    rw [embedBit_parity, Nat.toNat_testBit]
  · refine ⟨_, stored.embedded (by omega) (frame_payload_getElem? bound hj hk), ?_⟩
    rw [embedBit_parity, BitVec.getLsbD, Nat.toNat_testBit]
  · have inside : i < (frame p).length := by omega
    obtain ⟨_, _, upper, lower, _⟩ := embedBitMovesByAtMostOne cs[i] (frame p)[i]
    exact ⟨_, stored.embedded hi (List.getElem?_eq_getElem inside), upper, lower⟩

/-! ### The empty payload (R92) -/

/-- The frame of the empty payload is all zeros. -/
theorem frame_nil_getElem? {i : Nat} (hi : i < 32) : (frame [])[i]? = some false := by
  obtain ⟨_, header, _⟩ := frameIsHeaderThenPayload.1 [] (by decide)
  rw [header i hi, List.length_nil, Nat.mul_zero, Nat.zero_testBit]

theorem embedBit_false_toNat (c : Byte) :
    (embedBit c false).toNat = if c.toNat % 2 = 0 then c.toNat else c.toNat - 1 := by
  rw [embedBit_toNat, Bool.toNat_false]
  split <;> rfl

/-- A region of length 0 shares no index with any other (R15). -/
theorem shareNone_of_empty {r : Region} (empty : r.len = 0) (q : Region) : ShareNone r q := by
  rintro i ⟨⟨lower, upper⟩, _⟩
  rw [empty] at upper
  exact absurd lower (Nat.not_le_of_lt upper)

/-- Settles O44: EMBED whole, for the payload of no bytes, whose frame is 32 zeros. -/
theorem embedOfEmptyPayload : Obligations.EmbedOfEmptyPayload := by
  intro s empty src car
  have len : s.opnd.srcLen.toNat = 0 := by rw [empty]; rfl
  have apart : ShareNone (regionOf s.opnd .src) (regionOf s.opnd .car) := shareNone_of_empty len _
  obtain ⟨completes, _, _, _, lacksCapacity⟩ := embedWritesTheFrame.2 s
  refine ⟨fun cs carrier covered fits => ?_, fun small => ?_⟩
  · have noPayload : HoldsBytes s.buf s.opnd.srcAddr.toNat [] := fun j hj => absurd hj (Nat.not_lt_zero j)
    obtain ⟨t, ends, succeeded⟩ := completes [] cs noPayload len.symm carrier covered src car apart fits
    have written : (List.zipWith embedBit cs (frame [])).length = 32 := by
      rw [List.length_zipWith, frame_length, covered, List.length_nil]
      rfl
    have outside := succeeded.outside
    rw [written] at outside
    refine ⟨t, ends, succeeded.completed, outside, fun i hi => ?_⟩
    exact ⟨_, succeeded.stored.embedded hi (frame_nil_getElem? (covered ▸ hi)), embedBit_false_toNat cs[i]⟩
  · rw [len] at lacksCapacity
    exact lacksCapacity src car apart small

end Sys2Proof.Machine
end

section
/-! SUPPORT. The Extractor family (43_extractor.md): EXTRACT whole (R94 to R98), and the payload it recovers from a carrier
whose LSBs begin with a frame, as EMBED leaves it (R99). -/

namespace Sys2Proof.Machine

open Sys2Proof

/-! ### The checks of EXTRACT before its reads, in the order of R94 -/

section Checks

variable {s : State}

theorem extractChecks_range_car (dst : dstOk s) (car : ¬carOk s) :
    firstError (extractChecks s) = some ⟨.range, 3, 0⟩ := by
  rw [extractChecks, checkRange_dst_none dst, checkRange_some (n := .car) car]
  rfl

theorem extractChecks_overlap (dst : dstOk s) (car : carOk s)
    (shared : ¬ShareNone (regionOf s.opnd .car) (regionOf s.opnd .dst)) :
    firstError (extractChecks s) = some ⟨.overlap, 3, 2⟩ := by
  rw [extractChecks, checkRange_dst_none dst, checkRange_car_none car, checkOverlap_some shared]
  rfl

theorem extractChecks_header (dst : dstOk s) (car : carOk s)
    (apart : ShareNone (regionOf s.opnd .car) (regionOf s.opnd .dst)) (short : s.opnd.carLen.toNat < 32) :
    firstError (extractChecks s) = some ⟨.truncatedHeader, 32, s.opnd.carLen.toNat⟩ := by
  rw [extractChecks, checkRange_dst_none dst, checkRange_car_none car, checkOverlap_none.2 apart,
    raiseIf_of_true (decide_eq_true short)]
  rfl

end Checks

/-! ### EXTRACT, whole (R94) -/

/-- The checks before the reads passed, EXTRACT goes on with the header that its cells hold, and no record of a read. -/
theorem outcomeExtract_of_header {s : State} {hs : List Byte} (header : HoldsBytes s.buf s.opnd.carAddr.toNat hs)
    (len : hs.length = 32) (dst : dstOk s) (car : carOk s)
    (apart : ShareNone (regionOf s.opnd .car) (regionOf s.opnd .dst)) (whole : 32 ≤ s.opnd.carLen.toNat) :
    outcomeOf .extract s = extractPayload s (accumulate (lsbs hs)) s.trail := by
  have read := readBytes_of_holds header s.trail
  rw [len] at read
  have outcome := outcomeExtract_pass dst car apart whole
  rwa [extractHeader, read] at outcome

/-- EXTRACT stores the payload's bytes, if the carrier has them and DST has room. -/
theorem extractPayload_of_holds {s : State} {cs : List Byte}
    (payload : HoldsBytes s.buf (s.opnd.carAddr.toNat + 32) cs) (present : cs.length ≤ s.opnd.carLen.toNat - 32)
    (room : ceilDiv cs.length 8 ≤ s.opnd.dstLen.toNat) :
    extractPayload s cs.length s.trail =
      (.done cs.length (ceilDiv cs.length 8) (writeBytes s.opnd.dstAddr.toNat (unpackBytes (lsbs cs))), s.trail) := by
  rw [extractPayload_pass _ (Nat.not_lt_of_le present) (Nat.not_lt_of_le room), readBytes_of_holds payload]

/-- Settles O45: the four checks in order; then the header that the cells hold decides between two errors and the payload. -/
theorem extractRecoversThePayload : Obligations.ExtractRecoversThePayload := by
  refine ⟨decode_encode .extract, fun s => ?_⟩
  have checks : outcomeOf .extract s = _ := outcomeExtract_eq s
  refine ⟨fun hs cs header len payload count dst car apart whole present room => ?_, fun dst => ?_, fun dst car => ?_,
    fun dst car shared => ?_, fun dst car apart short => ?_, fun hs header len dst car apart whole => ?_⟩
  · have outcome := outcomeExtract_of_header header len dst car apart whole
    have value : cs.length < 2 ^ 32 := count ▸ accumulate_header_lt len
    rw [← count, extractPayload_of_holds payload present room] at outcome
    exact exec_succeeds outcome value (Nat.lt_of_le_of_lt (ceilDiv_le _) value)
  · exact exec_fails_check checks (firstError_range_dst dst _) (by decide) (by decide)
  · exact exec_fails_check checks (extractChecks_range_car dst car) (by decide) (by decide)
  · exact exec_fails_check checks (extractChecks_overlap dst car shared) (by decide) (by decide)
  · exact exec_fails_check checks (extractChecks_header dst car apart short) (by decide) s.opnd.carLen.isLt
  · have outcome := outcomeExtract_of_header header len dst car apart whole
    have value := accumulate_header_lt len
    refine ⟨fun truncated => ?_, fun present small => ?_⟩
    · exact exec_fails (outcome.trans (extractPayload_truncated _ truncated)) value
        (Nat.lt_of_le_of_lt (Nat.sub_le _ _) s.opnd.carLen.isLt)
    · exact exec_fails (outcome.trans (extractPayload_small _ (Nat.not_lt_of_le present) small))
        (Nat.lt_of_le_of_lt (ceilDiv_le _) value) s.opnd.dstLen.isLt

/-! ### The frame in the LSBs of a carrier (R67, R70) -/

/-- A region that holds two lists of bytes joined holds the first, and the second behind it. -/
theorem HoldsBytes.of_append {m : Memory} {a : Nat} {bs cs : List Byte} (h : HoldsBytes m a (bs ++ cs)) :
    HoldsBytes m a bs ∧ HoldsBytes m (a + bs.length) cs := by
  refine ⟨fun j hj => ?_, fun j hj => ?_⟩
  · rw [h j (by rw [List.length_append]; omega), List.getElem_append_left hj]
  · rw [Nat.add_assoc, h (bs.length + j) (by rw [List.length_append]; omega)]
    simp

theorem lsb_embedBit (c : Byte) (b : Bit) : lsb (embedBit c b) = b :=
  Function.LeftInverse.injective Bool.ofNat_toNat ((lsb_toNat _).trans (embedBit_parity c b))

/-- The LSBs of embedded bytes are the frame's bits, whatever the carrier's bytes were. -/
theorem lsbs_embedFrame {cs : List Byte} {fr : List Bit} (len : cs.length = fr.length) :
    lsbs (embedFrame cs fr) = fr := by
  refine List.ext_getElem ?_ fun i _ _ => ?_
  · rw [lsbs_length, embedFrame, List.length_zipWith, len, Nat.min_self]
  · simp [lsbs, embedFrame, lsb_embedBit]

/-- Whole bytes of bits are as many bytes. -/
theorem ceilDiv_eight_mul (n : Nat) : ceilDiv (8 * n) 8 = n := by rw [ceilDiv]; omega

/-- Bytes whose LSBs are a frame: 32 bytes whose LSBs count the payload's bits, then bytes whose LSBs are these bits. -/
theorem exists_header_payload_of_lsbs {ws p : List Byte} (bits : lsbs ws = frame p) (bound : 8 * p.length < 2 ^ 32) :
    ∃ hs cs, ws = hs ++ cs ∧ hs.length = 32 ∧ accumulate (lsbs hs) = 8 * p.length ∧ lsbs cs = packBytes p := by
  obtain ⟨hs, cs, joined, header, payload⟩ := List.map_eq_append_iff.1 bits
  refine ⟨hs, cs, joined, ?_, ?_, payload⟩
  · rw [← lsbs_length, lsbs, header, packWord_length]
  · rw [lsbs, header, accumulate_packWord, BitVec.toNat_ofNat, Nat.mod_eq_of_lt bound]

/-! ### The round trip (R99) -/

/-- EXTRACT recovers the payload of the frame that the LSBs of the carrier begin with. -/
theorem extract_of_frame {s : State} {ws p : List Byte} (carrier : HoldsBytes s.buf s.opnd.carAddr.toNat ws)
    (bits : lsbs ws = frame p) (fits : frameLen p.length ≤ s.opnd.carLen.toNat) (dst : dstOk s) (car : carOk s)
    (apart : ShareNone (regionOf s.opnd .car) (regionOf s.opnd .dst)) (room : p.length ≤ s.opnd.dstLen.toNat) :
    ∃ t, exec .extract s = .next t ∧ Succeeded (8 * p.length) p.length s.opnd.dstAddr.toNat p s t := by
  have whole : 32 + 8 * p.length ≤ s.opnd.carLen.toNat := fits
  have width := s.opnd.carLen.isLt
  obtain ⟨hs, cs, rfl, len, value, payloadBits⟩ := exists_header_payload_of_lsbs bits (by omega)
  have count : cs.length = 8 * p.length := by rw [← lsbs_length, payloadBits, packBytes_length]
  obtain ⟨header, payload⟩ := carrier.of_append
  rw [len] at payload
  obtain ⟨completes, _⟩ := extractRecoversThePayload.2 s
  have ends := completes hs cs header len payload (count.trans value.symm) dst car apart (by omega) (by omega)
  rw [payloadBits, unpackBytes_packBytes, count, ceilDiv_eight_mul] at ends
  exact ends room

/-- A successful EMBED passed its checks, and the LSBs of the carrier begin with the payload's frame (R89). -/
theorem embed_done_leaves_frame {s t : State} {p cs : List Byte} (payload : HoldsBytes s.buf s.opnd.srcAddr.toNat p)
    (len : p.length = s.opnd.srcLen.toNat) (carrier : HoldsBytes s.buf s.opnd.carAddr.toNat cs)
    (all : cs.length = s.opnd.carLen.toNat) (h : exec .embed s = .next t) (done : t.status.done = true) :
    carOk s ∧ frameLen p.length ≤ s.opnd.carLen.toNat ∧ t.bufLast = s.bufLast ∧
      ∃ ws, HoldsBytes t.buf s.opnd.carAddr.toNat ws ∧ lsbs ws = frame p := by
  rcases exec_embed_cases h with ⟨e, rfl⟩ | passed
  · exact Bool.noConfusion done
  · obtain ⟨_, car, _, fits⟩ := embedChecks_none.1 passed
    rw [← len] at fits
    have covered : (cs.take (frameLen p.length)).length = frameLen p.length := by
      rw [List.length_take, all, Nat.min_eq_left fits]
    rw [← List.take_append_drop (frameLen p.length) cs] at carrier
    obtain ⟨completed, stored, _, _⟩ := embed_done_succeeded payload len carrier.of_append.1 covered h done
    have bits : lsbs (embedFrame (cs.take (frameLen p.length)) (frame p)) = frame p :=
      lsbs_embedFrame (covered.trans (frame_length p).symm)
    exact ⟨car, fits, completed.rest.bufLast, _, stored, bits⟩

/-- Settles O46: EMBED leaves the payload's frame in the LSBs of the carrier, from which EXTRACT recovers it. -/
theorem embedThenExtractGivesThePayload : Obligations.EmbedThenExtractGivesThePayload := by
  intro s t u p cs payload len carrier all h done buf bufLast carAddr carLen dst apart room
  obtain ⟨car, fits, size, ws, stored, bits⟩ := embed_done_leaves_frame payload len carrier all h done
  rw [← buf, ← carAddr] at stored
  rw [← carLen] at fits
  have inside : carOk u := by rwa [carOk, bufSize, bufLast, size, carAddr, carLen]
  exact extract_of_frame stored bits fits dst inside apart room

end Sys2Proof.Machine
end

section
/-! SUPPORT. The exceptions family (60_exceptions.md): the end of an ILLEGAL word (R101), the outcome that stands between
commands (R104), and the idle CORE that does nothing (R109). -/

namespace Sys2Proof.Machine

open Sys2Proof

/-! ### The outcome of a command stands (R104) -/

/-- A host access that leaves the CORE idle keeps the last outcome: CMD writes alone clear it, and they set BUSY (R24). -/
theorem HostEffect.outcome {a : Access} {s t : State} (h : HostEffect a s t) (idle : t.status.busy = false) :
    t.res = s.res ∧ t.status.done = s.status.done ∧ t.status.err = s.status.err ∧
      t.status.errCode = s.status.errCode := by
  cases h with
  | issue => exact Bool.noConfusion idle
  | refused | hazardWrite | hazardRead | read | readCell | setOperands | writeCell => exact ⟨rfl, rfl, rfl, rfl⟩

/-- Settles O24: a command ends only while BUSY, so that an idle step but the reset is the host's or changes nothing. -/
theorem outcomeStandsUntilCmdOrReset : Obligations.OutcomeStandsUntilCmdOrReset := by
  intro s t h idle idle' noReset
  cases step_effect h with
  | access _ effect => exact effect.outcome idle'
  | nothing | poll => exact ⟨rfl, rfl, rfl, rfl⟩
  | reset turn => exact absurd turn noReset
  | failed _ _ busy | completed _ _ _ _ busy => exact absurd (idle.symm.trans busy) Bool.false_ne_true

/-! ### An ILLEGAL word (R101) -/

/-- The engine step of a word that is no command's. -/
theorem engineStep_of_illegal {s : State} (h : ¬∃ i, decode s.opLatch = .ok i) :
    engineStep s = .next (illegalOp s) := by
  cases hd : decode s.opLatch with
  | ok i => exact absurd ⟨i, hd⟩ h
  | error e => simp only [engineStep, hd]

/-- Settles O5: a word outside 1 to 9 decodes to no command (O3), and `illegalOp` is an error completion with code 4. -/
theorem illegalWordEndsInIllegalOp : Obligations.IllegalWordEndsInIllegalOp := by
  intro s reserved
  have illegal : ¬∃ i, decode s.opLatch = .ok i := fun legal => reserved ((legalWordsAreTheNine s.opLatch).1 legal)
  exact ⟨illegalOp s, engineStep_of_illegal illegal,
    failedWith_raiseError .illegalOp s.opLatch.isLt (by decide) s⟩

/-! ### The idle CORE (R109, R110) -/

theorem takeTurn_of_turns_nil {s : State} (h : s.turns = []) : takeTurn s = s := by
  obtain ⟨⟩ := s
  cases h
  rfl

theorem hostMove_of_program_nil {s : State} (h : s.program = []) : hostMove s = s := by
  simp only [hostMove, h]

/-- Settles O10: the turn is the host's, no turn is used up, and the host has no operation left. -/
theorem idleCoreStaysAsItIs : Obligations.IdleCoreStaysAsItIs := by
  intro s idle noTurns noProgram
  have host : whoMoves s = .host := whoMoves_eq_host.2 (.inl ⟨noTurns, idle⟩)
  simp only [step, host, takeTurn_of_turns_nil noTurns, hostMove_of_program_nil noProgram]

end Sys2Proof.Machine
end

section
/-! SUPPORT. The reset and hazards family (70_reset_and_hazards.md): the step that is the reset event (R110), the accesses
while BUSY (R113), and the end of every busy period (R115). -/

namespace Sys2Proof.Machine

open Sys2Proof

/-! ### A busy CORE comes to an end (R115) -/

theorem HostEffect.turns {a : Access} {s t : State} (h : HostEffect a s t) : t.turns = s.turns := by
  cases h with
  | refused | hazardWrite | hazardRead | read | readCell | issue | setOperands | writeCell => rfl

/-- Every step uses up one turn of those given out, and gives out none (log 6). -/
theorem StepEffect.turns {s t : State} (h : StepEffect s t) : t.turns = s.turns.tail := by
  cases h with
  | access _ effect => exact effect.turns
  | nothing | poll | reset | failed | completed => rfl

/-- The engine step ends the command, whatever word is latched (R75, R101). -/
theorem engineStep_ends_idle (s : State) : ∃ t, engineStep s = .next t ∧ t.status.busy = false := by
  by_cases legal : ∃ i, decode s.opLatch = .ok i
  · obtain ⟨i, decoded⟩ := legal
    obtain ⟨t, ends, idle, _⟩ := everyCommandEnds i s
    exact ⟨t, (engineStep_of_decode decoded).trans ends, idle⟩
  · exact ⟨illegalOp s, engineStep_of_illegal legal, rfl⟩

/-- Settles O25, by induction on the turns given out: each step uses one up, and with none left the engine moves. -/
theorem busyComesToAnEnd : Obligations.BusyComesToAnEnd := by
  intro s busy
  induction turns : s.turns generalizing s with
  | nil =>
    obtain ⟨t, ends, idle⟩ := engineStep_ends_idle (takeTurn s)
    have h : step s = .next t := (stepRunsTheLatchedCommand s busy (.inl turns)).1.trans ends
    exact ⟨1, t, Nat.le_refl 1, core_run_succ h 0, idle⟩
  | cons a rest ih =>
    obtain ⟨u, h⟩ := step_next s
    have left : u.turns = rest := by rw [(step_effect h).turns, turns, List.tail_cons]
    cases busy' : u.status.busy with
    | false => exact ⟨1, u, Nat.le_add_left 1 _, core_run_succ h 0, busy'⟩
    | true =>
      obtain ⟨n, t, bound, run, idle⟩ := ih u busy' left
      exact ⟨n + 1, t, Nat.succ_le_succ bound, (core_run_succ h n).trans run, idle⟩

/-! ### The reset event (R110, R111) -/

theorem whoMoves_eq_reset {s : State} (turn : s.turns.head? = some .reset) : whoMoves s = .reset := by
  obtain ⟨rest, turns⟩ := List.head?_eq_some_iff.1 turn
  simp only [whoMoves, turns]

/-- Settles O9: on its turn the step is `resetEvent`, busy or not. -/
theorem resetEventClearsTheCore : Obligations.ResetEventClearsTheCore := by
  intro s turn
  have isReset : step s = .next (resetEvent (takeTurn s)) := by simp only [step, whoMoves_eq_reset turn]
  exact ⟨_, isReset, fun c => readCsr_resetEvent c _, rfl, fun _ => rfl, rfl, rfl, rfl⟩

/-! ### Accesses while BUSY (R113) -/

/-- A register or a reserved one stands at every multiple of 4 up to 0x3C (R23, R45). -/
theorem exists_csrOffset_eq {i : Nat} (aligned : i % 4 = 0) (inside : i ≤ 0x3C) : ∃ c, i = csrOffset c := by
  obtain ⟨c, h⟩ := Option.isSome_iff_exists.1 ((csrAt_isSome i).2 ⟨aligned, Nat.lt_of_le_of_lt inside (by decide)⟩)
  exact ⟨c, csrOffset_of_csrAt h⟩

/-- Settles O19: in either window such a write is `hazard` alone, and such a read is `hazard` with a free value drawn. -/
theorem hazardSetsHazAndNothingElse : Obligations.HazardSetsHazAndNothingElse := by
  intro s sp i width busy wellFormed
  cases sp with
  | csr =>
    obtain ⟨rfl, aligned, inside⟩ := wellFormed
    obtain ⟨c, rfl⟩ := exists_csrOffset_eq aligned inside
    refine ⟨fun data => hostAccess_writeCsr_busy c data busy, fun notStatus => ⟨_, hostAccess_readCsr_busy c busy ?_⟩⟩
    rintro rfl
    exact notStatus ⟨rfl, rfl⟩
  | buf =>
    obtain ⟨rfl, inside⟩ := wellFormed
    exact ⟨hostAccess_writeBuf_busy inside busy, fun _ => ⟨_, hostAccess_readBuf_busy inside busy⟩⟩

/-- Settles O20: a STATUS read is no hazard, and hands STATUS back. -/
theorem statusReadIsAlwaysDefined : Obligations.StatusReadIsAlwaysDefined := hostRead_status

end Sys2Proof.Machine
end
